-- ==== Sys2Proof/Word.lean ====
section
/-! DEFINITION. The word types of the RSQNR unit: the 64-bit pattern of a data register, the 32-bit command word and
binary32 pattern, and the index of a data register (spec/00_scope.md R6, R9). -/

namespace Sys2Proof

/-- A 64-bit pattern: a data register, a binary64 value, a value on the host port (R9, R21, R50). -/
abbrev Word := BitVec 64

/-- A 32-bit pattern: a command word (R60) or a binary32 value (R81). -/
abbrev Word32 := BitVec 32

/-- The index of one of the eight data registers R0 to R7 (R20, R62). -/
abbrev RegIx := Fin 8

end Sys2Proof
end

