-- ==== Sys2Proof/Machine/Float.lean ====
section
/-! DEFINITION. The floating-point formats and arithmetic primitives of spec/40_fp_primitives.md: fields and values
(R80, R81), classification (R82), RoundTo on exact rationals (R83), NaNs and constants (R84, R85), and the operations
fmul64, fsub64, fdiv32, narrow, widen and lt_zero (R86 to R91). -/

namespace Sys2Proof.Machine

/-- A binary interchange format F of R83. -/
structure Format where
  /-- EB, the width of the exponent field. -/
  expBits  : Nat
  /-- MB, the width of the mantissa field. -/
  fracBits : Nat
  bias     : Int
  emin     : Int
  emax     : Int
  deriving DecidableEq, Repr

/-- binary64 (R80, R83). -/
def binary64 : Format := ⟨11, 52, 1023, -1022, 1023⟩

/-- binary32, the "reduced precision" (R81, R83). -/
def binary32 : Format := ⟨8, 23, 127, -126, 127⟩

/-- Sign, biased exponent and mantissa, as numbers (R21, R80). -/
structure Fields where
  sign : Bool
  exp  : Nat
  frac : Nat
  deriving DecidableEq, Repr

/-- s = b[63] (R80). -/
def sign64 (b : Word) : Bool := b.getLsbD 63

/-- e = b[62:52] (R80). -/
def exp64 (b : Word) : BitVec 11 := b.extractLsb' 52 11

/-- m = b[51:0] (R80). -/
def frac64 (b : Word) : BitVec 52 := b.extractLsb' 0 52

/-- s ++ e ++ m as a binary64 pattern (R80). -/
def join64 (s : Bool) (e : BitVec 11) (m : BitVec 52) : Word := BitVec.ofBool s ++ e ++ m

/-- s = f[31] (R81). -/
def sign32 (f : Word32) : Bool := f.getLsbD 31

/-- e = f[30:23] (R81). -/
def exp32 (f : Word32) : BitVec 8 := f.extractLsb' 23 8

/-- m = f[22:0] (R81). -/
def frac32 (f : Word32) : BitVec 23 := f.extractLsb' 0 23

/-- s ++ e ++ m as a binary32 pattern (R81). -/
def join32 (s : Bool) (e : BitVec 8) (m : BitVec 23) : Word32 := BitVec.ofBool s ++ e ++ m

/-- `is_zero` (R82, R92). -/
def isZero (b : Word) : Bool := exp64 b == 0#11 && frac64 b == 0#52

/-- `is_subnormal` (R82). -/
def isSubnormal (b : Word) : Bool := exp64 b == 0#11 && frac64 b != 0#52

/-- `is_normal` (R82). -/
def isNormal (b : Word) : Bool := exp64 b != 0#11 && exp64 b != 0x7FF#11

/-- `is_inf` (R82). -/
def isInf (b : Word) : Bool := exp64 b == 0x7FF#11 && frac64 b == 0#52

/-- `is_nan` (R82). -/
def isNan (b : Word) : Bool := exp64 b == 0x7FF#11 && frac64 b != 0#52

/-- `is_zero32` (R82). -/
def isZero32 (f : Word32) : Bool := exp32 f == 0#8 && frac32 f == 0#23

/-- `is_inf32` (R82). -/
def isInf32 (f : Word32) : Bool := exp32 f == 0xFF#8 && frac32 f == 0#23

/-- `is_nan32` (R82). -/
def isNan32 (f : Word32) : Bool := exp32 f == 0xFF#8 && frac32 f != 0#23

/-- 2^k as an exact rational. -/
def pow2 (k : Int) : Rat :=
  if 0 ≤ k then ((2 ^ k.toNat : Nat) : Rat) else ((2 ^ (-k).toNat : Nat) : Rat)⁻¹

/-- The value of finite fields of a format: m·2^(emin-MB) where e = 0, else (2^MB + m)·2^(e-bias-MB), with the sign
(R80, R81; the subnormal exponent is emin, 90_conflicts.md C8). -/
def finiteValue (F : Format) (s : Bool) (e m : Nat) : Rat :=
  let magnitude : Rat :=
    if e = 0 then (m : Rat) * pow2 (F.emin - F.fracBits)
    else ((2 ^ F.fracBits + m : Nat) : Rat) * pow2 (e - F.bias - F.fracBits)
  if s then -magnitude else magnitude

/-- `val64(b)` for a finite pattern (R80). No rule takes it of an infinity or a NaN (log entry 13). -/
def val64 (b : Word) : Rat := finiteValue binary64 (sign64 b) (exp64 b).toNat (frac64 b).toNat

/-- `val32(f)` for a finite pattern (R81). -/
def val32 (f : Word32) : Rat := finiteValue binary32 (sign32 f) (exp32 f).toNat (frac32 f).toNat

/-- floor(log2(a)) for a > 0 (R83). The logarithms of numerator and denominator leave two candidates. -/
def floorLog2 (a : Rat) : Int :=
  let k : Int := (Nat.log2 a.num.natAbs : Int) - (Nat.log2 a.den : Int)
  if pow2 k ≤ a then k else k - 1

/-- The integer nearest to n ≥ 0, "if n is exactly halfway, the even one" (R83). -/
def nearestEven (n : Rat) : Nat :=
  let k := n.num.natAbs / n.den
  let r := n.num.natAbs % n.den
  if n.den < 2 * r ∨ (2 * r = n.den ∧ k % 2 = 1) then k + 1 else k

/-- The end of RoundTo, from the sign s, the exponent e and the rounded significand k on: the carry out of the
significand, overflow to infinity, subnormal or zero, normal (R83). -/
def assemble (F : Format) (s : Bool) (e : Int) (k : Nat) : Fields :=
  if k = 2 ^ (F.fracBits + 1) then
    if F.emax < e + 1 then ⟨s, 2 ^ F.expBits - 1, 0⟩ else ⟨s, (e + 1 + F.bias).toNat, 0⟩
  else if F.emax < e then ⟨s, 2 ^ F.expBits - 1, 0⟩
  else if k < 2 ^ F.fracBits then ⟨s, 0, k⟩
  else ⟨s, (e + F.bias).toNat, k - 2 ^ F.fracBits⟩

/-- The exponent e of R83: that of a, but not below emin. -/
def roundExp (F : Format) (a : Rat) : Int := max (floorLog2 a) F.emin

/-- The significand k of R83: a in units of 2^(e-MB), rounded to the nearest integer. -/
def roundSig (F : Format) (a : Rat) : Nat := nearestEven (a * pow2 (F.fracBits - roundExp F a))

/-- `RoundTo(F, q, zs)` (R83): nearest, ties to even, gradual underflow, overflow to infinity. -/
def roundTo (F : Format) (q : Rat) (zs : Bool) : Fields :=
  if q = 0 then ⟨zs, 0, 0⟩
  else if q < 0 then assemble F true (roundExp F (-q)) (roundSig F (-q))
  else assemble F false (roundExp F q) (roundSig F q)

/-- The binary64 pattern of fields. -/
def Fields.to64 (f : Fields) : Word := join64 f.sign (BitVec.ofNat 11 f.exp) (BitVec.ofNat 52 f.frac)

/-- The binary32 pattern of fields. -/
def Fields.to32 (f : Fields) : Word32 := join32 f.sign (BitVec.ofNat 8 f.exp) (BitVec.ofNat 23 f.frac)

/-- RoundTo(binary64, q, zs) as a pattern (R83). -/
def round64 (q : Rat) (zs : Bool) : Word := (roundTo binary64 q zs).to64

/-- RoundTo(binary32, q, zs) as a pattern (R83). -/
def round32 (q : Rat) (zs : Bool) : Word32 := (roundTo binary32 q zs).to32

/-- `quiet64` (R84). -/
def quiet64 (b : Word) : Word := b ||| (1#64 <<< 51)

/-- `quiet32` (R84). -/
def quiet32 (f : Word32) : Word32 := f ||| (1#32 <<< 22)

/-- HALF, 0.5 (R85). -/
def half64 : Word := 0x3FE0000000000000#64

/-- THREEHALF, 1.5 (R85). -/
def threeHalf64 : Word := 0x3FF8000000000000#64

/-- ONE32, 1.0 (R85). -/
def one32 : Word32 := 0x3F800000#32

/-- DNAN64, the default binary64 NaN (R85). -/
def dnan64 : Word := 0x7FF8000000000000#64

/-- DNAN32, the default binary32 NaN (R85). -/
def dnan32 : Word32 := 0x7FC00000#32

/-- NEG_NAN, the domain-error result (R85). -/
def negNan : Word := 0xFFF8000000000000#64

/-- ±∞ of binary64. -/
def inf64 (s : Bool) : Word := join64 s 0x7FF#11 0#52

/-- ±∞ of binary32. -/
def inf32 (s : Bool) : Word32 := join32 s 0xFF#8 0#23

/-- ±0 of binary64. -/
def zero64 (s : Bool) : Word := join64 s 0#11 0#52

/-- ±0 of binary32. -/
def zero32 (s : Bool) : Word32 := join32 s 0#8 0#23

/-- `fmul64(a, b)` (R86). DESIGN CHOICE (log entry 16): the last clause of R96, a square that overflows for some |x| just
below 2^512, disagrees with R83 and R86, which are followed here: none of these squares reaches 2^1024 - 2^970. -/
def fmul64 (a b : Word) : Word :=
  if isNan a then quiet64 a
  else if isNan b then quiet64 b
  else
    let s := sign64 a ^^ sign64 b
    if isInf a || isInf b then
      if isZero a || isZero b then dnan64 else inf64 s
    else round64 (val64 a * val64 b) s

/-- `fsub64(a, b)`, a - b (R87). -/
def fsub64 (a b : Word) : Word :=
  if isNan a then quiet64 a
  else if isNan b then quiet64 b
  else if isInf a && isInf b then
    if sign64 a == sign64 b then dnan64 else a
  else if isInf a then a
  else if isInf b then inf64 (!sign64 b)
  else if isZero a && isZero b then zero64 (sign64 a && !sign64 b)
  else round64 (val64 a - val64 b) false

/-- `fdiv32(a, b)`, a / b (R88). -/
def fdiv32 (a b : Word32) : Word32 :=
  if isNan32 a then quiet32 a
  else if isNan32 b then quiet32 b
  else
    let s := sign32 a ^^ sign32 b
    if (isInf32 a && isInf32 b) || (isZero32 a && isZero32 b) then dnan32
    else if isInf32 a then inf32 s
    else if isInf32 b then zero32 s
    else if isZero32 b then inf32 s
    else round32 (val32 a / val32 b) s

/-- `narrow(b)`, binary64 to binary32 (R89). -/
def narrow (b : Word) : Word32 :=
  if isNan b then join32 (sign64 b) 0xFF#8 ((frac64 b).extractLsb' 29 23 ||| (1#23 <<< 22))
  else if isInf b then inf32 (sign64 b)
  else round32 (val64 b) (sign64 b)

/-- `widen(f)`, binary32 to binary64 (R90). -/
def widen (f : Word32) : Word :=
  if isNan32 f then join64 (sign32 f) 0x7FF#11 ((frac32 f ||| (1#23 <<< 22)) ++ 0#29)
  else if isInf32 f then inf64 (sign32 f)
  else round64 (val32 f) (sign32 f)

/-- `lt_zero(b)`, the ordered test b < 0 (R91). -/
def ltZero (b : Word) : Bool := sign64 b && !isNan b && !isZero b

end Sys2Proof.Machine
end

