-- ==== Sys2Proof/Syntax.lean ====
section
/-! DEFINITION. The commands of the RSQNR unit: one constructor for each row of spec/opcode_table.json, carrying
exactly the register fields the row uses (spec/30_encoding.md R64, R66). -/

namespace Sys2Proof

/-- A command, operands in the assembler's order `rd, rs1, rs2` (R65). A field that an opcode does not use must be 0
(R64), so it has no place here. -/
inductive Instr where
  /-- OPC 0x00 (43_control.md R150). -/
  | nop
  /-- OPC 0x01 (42_rsqrt_sqrt.md R125). -/
  | sqrt (rd rs1 : RegIx)
  /-- OPC 0x02 (R120). -/
  | rseed (rd rs1 : RegIx)
  /-- OPC 0x03 (R121). -/
  | rest (rd rs1 : RegIx)
  /-- OPC 0x04 (R122). -/
  | nrstep (rd rs1 rs2 : RegIx)
  /-- OPC 0x05 (R123). -/
  | nr4 (rd rs1 rs2 : RegIx)
  /-- OPC 0x06 (R124). -/
  | nrmul (rd rs1 rs2 : RegIx)
  /-- OPC 0x08 (41_bit_layout.md R100). -/
  | fclass (rd rs1 : RegIx)
  /-- OPC 0x09 (R101). -/
  | exts (rd rs1 : RegIx)
  /-- OPC 0x0A (R102). -/
  | exte (rd rs1 : RegIx)
  /-- OPC 0x0B (R103). -/
  | extm (rd rs1 : RegIx)
  /-- OPC 0x0D (R104). -/
  | inss (rd rs1 rs2 : RegIx)
  /-- OPC 0x0E (R105). -/
  | inse (rd rs1 rs2 : RegIx)
  /-- OPC 0x0F (R106). -/
  | insm (rd rs1 rs2 : RegIx)
  deriving DecidableEq, Repr

end Sys2Proof
end

