-- ==== Sys2Proof/WellFormed.lean ====
section
/-! DEFINITION. What the spec calls well formed in what the host sends: a legal command value (spec/30_encoding.md
R66, R67) and an access inside the specification (spec/20_memory.md R41). Every term of `Instr` is well formed by its
type: its register indices are 0 to 7 and it carries no unused field. -/

namespace Sys2Proof

/-- A row of the opcode map: a command word `w` selects it when `w &&& mask = pattern` (R66, where `pattern` is the
column `match`). -/
structure OpcodeRow where
  mnemonic : String
  pattern  : Word32
  mask     : Word32
  deriving DecidableEq, Repr

/-- The opcode map, row by row (R66). -/
def opcodeMap : List OpcodeRow :=
  [⟨"NOP",    0x00000000#32, 0xFFFFFFFF#32⟩,
   ⟨"SQRT",   0x00000001#32, 0xFFFF88FF#32⟩,
   ⟨"RSEED",  0x00000002#32, 0xFFFF88FF#32⟩,
   ⟨"REST",   0x00000003#32, 0xFFFF88FF#32⟩,
   ⟨"NRSTEP", 0x00000004#32, 0xFFF888FF#32⟩,
   ⟨"NR4",    0x00000005#32, 0xFFF888FF#32⟩,
   ⟨"NRMUL",  0x00000006#32, 0xFFF888FF#32⟩,
   ⟨"FCLASS", 0x00000008#32, 0xFFFF88FF#32⟩,
   ⟨"EXTS",   0x00000009#32, 0xFFFF88FF#32⟩,
   ⟨"EXTE",   0x0000000A#32, 0xFFFF88FF#32⟩,
   ⟨"EXTM",   0x0000000B#32, 0xFFFF88FF#32⟩,
   ⟨"INSS",   0x0000000D#32, 0xFFF888FF#32⟩,
   ⟨"INSE",   0x0000000E#32, 0xFFF888FF#32⟩,
   ⟨"INSM",   0x0000000F#32, 0xFFF888FF#32⟩]

/-- The test of one row on a command word (R66). -/
def OpcodeRow.selects (r : OpcodeRow) (w : Word32) : Bool :=
  w &&& r.mask == r.pattern

/-- `legal(v)` of R67: bits 63:32 are 0 and bits 31:0 match a row. -/
def legal (v : Word) : Bool :=
  v.extractLsb' 32 32 == 0#32 && opcodeMap.any (·.selects (v.extractLsb' 0 32))

/-- An access the specification covers: 64 bits, at a multiple of 8, below offset 0x80 (R41). -/
def admissible (off bits : Nat) : Bool :=
  bits == 64 && off % 8 == 0 && decide (off < 0x80)

end Sys2Proof
end

