-- ==== Sys2Proof/Decode.lean ====
section
/-! DEFINITION. The decoder of the value written to CMD, total and rejecting by name, and the encoder, both written
from the fields of spec/30_encoding.md R61 and the opcode numbers of R66. -/

namespace Sys2Proof

/-- Why a value written to CMD is no command. The block only sets STATUS.ILL (60_exceptions.md R162) and keeps no
reason; the names, and which one is given where several hold, are the model's own (log entry 14). -/
inductive DecodeError where
  /-- Bits 63:32 are not all 0 (R60). -/
  | upperHalf
  /-- One of the reserved bits 6, 7, 11, 15 and 31:19 is 1 (R61). -/
  | reservedBit
  /-- A register field the opcode does not use is not 0 (R64). -/
  | unusedField
  /-- The OPC value has no row in R66. -/
  | unknownOpcode (opc : BitVec 6)
  deriving DecidableEq, Repr

/-- Field OPC (R61). -/
def fieldOpc (w : Word32) : BitVec 6 := w.extractLsb' 0 6

/-- A 3-bit register field as an index (R62). -/
def regOfBits (b : BitVec 3) : RegIx := b.toFin

/-- Field RD (R61). -/
def fieldRd (w : Word32) : RegIx := regOfBits (w.extractLsb' 8 3)

/-- Field RS1 (R61). -/
def fieldRs1 (w : Word32) : RegIx := regOfBits (w.extractLsb' 12 3)

/-- Field RS2 (R61). -/
def fieldRs2 (w : Word32) : RegIx := regOfBits (w.extractLsb' 16 3)

/-- The reserved bits of a command word are all 0 (R61). -/
def reservedClear (w : Word32) : Bool :=
  w.extractLsb' 6 2 == 0#2 && w.extractLsb' 11 1 == 0#1 && w.extractLsb' 15 1 == 0#1 && w.extractLsb' 19 13 == 0#13

/-- A command of no operands: RD, RS1 and RS2 must be 0 (R64, R150). -/
def noOperands (i : Instr) (w : Word32) : Except DecodeError Instr :=
  if fieldRd w = 0 ∧ fieldRs1 w = 0 ∧ fieldRs2 w = 0 then .ok i else .error .unusedField

/-- A command of one source: RS2 must be 0 (R64). -/
def oneSource (c : RegIx → RegIx → Instr) (w : Word32) : Except DecodeError Instr :=
  if fieldRs2 w = 0 then .ok (c (fieldRd w) (fieldRs1 w)) else .error .unusedField

/-- A command of two sources (R64). -/
def twoSources (c : RegIx → RegIx → RegIx → Instr) (w : Word32) : Except DecodeError Instr :=
  .ok (c (fieldRd w) (fieldRs1 w) (fieldRs2 w))

/-- The command word of R61 by its opcode number (R66). -/
def decodeOpcode (w : Word32) : Except DecodeError Instr :=
  match (fieldOpc w).toNat with
  | 0x00 => noOperands .nop w
  | 0x01 => oneSource .sqrt w
  | 0x02 => oneSource .rseed w
  | 0x03 => oneSource .rest w
  | 0x04 => twoSources .nrstep w
  | 0x05 => twoSources .nr4 w
  | 0x06 => twoSources .nrmul w
  | 0x08 => oneSource .fclass w
  | 0x09 => oneSource .exts w
  | 0x0A => oneSource .exte w
  | 0x0B => oneSource .extm w
  | 0x0D => twoSources .inss w
  | 0x0E => twoSources .inse w
  | 0x0F => twoSources .insm w
  | _    => .error (.unknownOpcode (fieldOpc w))

/-- `decode(v)` of R67 on the whole 64-bit value written to CMD. -/
def decode (v : Word) : Except DecodeError Instr :=
  if v.extractLsb' 32 32 ≠ 0#32 then .error .upperHalf
  else if reservedClear (v.extractLsb' 0 32) = false then .error .reservedBit
  else decodeOpcode (v.extractLsb' 0 32)

/-- The opcode number of a command (R66). -/
def Instr.opc : Instr → BitVec 6
  | .nop          => 0x00#6
  | .sqrt _ _     => 0x01#6
  | .rseed _ _    => 0x02#6
  | .rest _ _     => 0x03#6
  | .nrstep _ _ _ => 0x04#6
  | .nr4 _ _ _    => 0x05#6
  | .nrmul _ _ _  => 0x06#6
  | .fclass _ _   => 0x08#6
  | .exts _ _     => 0x09#6
  | .exte _ _     => 0x0A#6
  | .extm _ _     => 0x0B#6
  | .inss _ _ _   => 0x0D#6
  | .inse _ _ _   => 0x0E#6
  | .insm _ _ _   => 0x0F#6

/-- A register index as a 3-bit field (R62). -/
def bitsOfReg (r : RegIx) : BitVec 3 := BitVec.ofNat 3 r.val

/-- The command word of the given fields, from bit 31 down: thirteen reserved bits, RS2, one reserved bit, RS1, one
reserved bit, RD, two reserved bits, OPC (R61, and the encoding strings of R66). -/
def commandWord (opc : BitVec 6) (rd rs1 rs2 : RegIx) : Word32 :=
  0#13 ++ bitsOfReg rs2 ++ 0#1 ++ bitsOfReg rs1 ++ 0#1 ++ bitsOfReg rd ++ 0#2 ++ opc

/-- The command word of a command; a field its syntax does not name is 0 (R70). -/
def encode (i : Instr) : Word32 :=
  match i with
  | .nop            => commandWord i.opc 0 0 0
  | .sqrt rd a      => commandWord i.opc rd a 0
  | .rseed rd a     => commandWord i.opc rd a 0
  | .rest rd a      => commandWord i.opc rd a 0
  | .nrstep rd a b  => commandWord i.opc rd a b
  | .nr4 rd a b     => commandWord i.opc rd a b
  | .nrmul rd a b   => commandWord i.opc rd a b
  | .fclass rd a    => commandWord i.opc rd a 0
  | .exts rd a      => commandWord i.opc rd a 0
  | .exte rd a      => commandWord i.opc rd a 0
  | .extm rd a      => commandWord i.opc rd a 0
  | .inss rd a b    => commandWord i.opc rd a b
  | .inse rd a b    => commandWord i.opc rd a b
  | .insm rd a b    => commandWord i.opc rd a b

/-- The 64-bit value that presents a command to CMD: its word, zero-extended (R60, R71 `cmd`). -/
def encodeValue (i : Instr) : Word := (encode i).setWidth 64

/-- The value on the port for a table row's bits `w` of `nbits`: every bit above `nbits` is 0, and bits 63:32 of a CMD
write must be 0 (R60). -/
def tableValue (nbits w : Nat) : Word := BitVec.ofNat 64 (w % 2 ^ nbits)

/-- The command that the decoder reads from a table word numbered as spec/opcode_table.json numbers it. -/
def decodeTableWord (nbits w : Nat) : Option Instr :=
  match decode (tableValue nbits w) with
  | .ok i    => some i
  | .error _ => none

end Sys2Proof
end

