-- ==== Sys2Proof/Machine/State.lean ====
section
/-! DEFINITION. The state of the RSQNR unit as plain data (spec/10_state.md R20 to R37), the moves of the host
(spec/70_reset_and_hazards.md R190), the reasons a step stops, and the state after reset (R37, R181). -/

namespace Sys2Proof.Machine

/-- The three STATUS fields that every completion writes, the report on the last completed command (R28, R29, R30). -/
structure Path where
  /-- DLAST, bit 4: that command recorded a domain error. -/
  dlast  : Bool
  /-- SINF, bit 5: that command found an infinite seed. -/
  sinf   : Bool
  /-- SCLAMP, bit 6: that command clamped a zero seed exponent. -/
  sclamp : Bool
  deriving DecidableEq, Repr

/-- The stored fields of STATUS (R23). BUSY, bit 0, has its one home in `State.inflight` (R24, R33; log entry 6);
bits 63:7 always read 0 (R31) and are not stored. -/
structure Status where
  /-- DOM, bit 1, sticky (R25). -/
  dom  : Bool
  /-- ILL, bit 2, sticky (R26). -/
  ill  : Bool
  /-- OVR, bit 3, sticky (R27). -/
  ovr  : Bool
  /-- DLAST, SINF and SCLAMP, bits 4 to 6. -/
  path : Path
  deriving DecidableEq, Repr

/-- The record INFLIGHT of the one command in flight (R33). `cmd` gives the record's op and rd; `a` and `b` are the
latched operands. An operand that the command does not use is stored as 0 and never read (log entry 7). -/
structure InFlight where
  cmd : Instr
  a   : Word
  b   : Word
  deriving DecidableEq, Repr

/-- What the host, or the platform for `reset`, can do to the block: the table of R190. -/
inductive HostMove where
  /-- A read of `bits` bits at byte offset `off` of the window (20_memory.md R40 to R43, R46, R47, R49). -/
  | read (off bits : Nat)
  /-- A write of `v`, `bits` bits wide, at byte offset `off` (R44, R45, R48, R49). -/
  | write (off bits : Nat) (v : Word)
  /-- The platform's reset (70_reset_and_hazards.md R180). -/
  | reset
  deriving DecidableEq, Repr

/-- A pending move with its place in the total order of R51. Where a command is in flight when the move's turn comes,
`afterCompletion` says which of the two allowed orders this run takes (R53, R56; U8, U9; log entry 5). -/
structure Pending where
  move : HostMove
  afterCompletion : Bool
  deriving DecidableEq, Repr

/-- The error conditions of 60_exceptions.md R161. -/
inductive ErrorCondition where
  | domainError
  | illegalCommand
  | overrun
  deriving DecidableEq, Repr

structure State where
  /-- R0 to R7 (R20, R21). -/
  regs     : Vector Word 8
  /-- Which data registers have been written since reset (R22, R180, R184 `Written`). -/
  written  : Vector Bool 8
  /-- STATUS but for BUSY (R23). -/
  status   : Status
  /-- INFLIGHT, `none` where it is empty (R33); BUSY is 1 exactly where it is not (R24). -/
  inflight : Option InFlight
  /-- The model's own: the pending moves of the host and the platform, oldest first (R51, R190; log entry 1). -/
  host     : List Pending
  /-- The model's own: the values that host reads have returned, newest first (log entry 9). -/
  replies  : List Word
  /-- The model's own: where the next free value is taken (log entry 4). -/
  draws    : Nat
  deriving DecidableEq, Repr

/-- Why a run stops with a fault. The block itself has no traps and no fault (60_exceptions.md R160), and `step` never
answers one. -/
inductive Fault where
  /-- Raised by `Sys2Proof.strictStep` alone, never by `step`: the event would read the data register `r`, which
  nothing has written since reset (10_state.md R22, 70_reset_and_hazards.md R183). Safe: the hardware goes on with an
  unspecified value. Log entry 2. -/
  | unwrittenRead (r : RegIx)
  deriving DecidableEq, Repr

/-- Why the model gives a step no meaning. -/
inductive Refusal where
  /-- The instruction has no meaning yet. Raised by no arm of this model. Safe. -/
  | notModelled (mnemonic : String)
  /-- A host access of fewer than 64 bits (20_memory.md R41). Raised by the host port. Safe: "A model refuses such an
  access". -/
  | narrowAccess (bits : Nat)
  /-- A host access of more than 64 bits (R41). Raised by the host port. Safe. -/
  | wideAccess (bits : Nat)
  /-- A host access at an offset that is not a multiple of 8 (R41). Raised by the host port. Safe. -/
  | misaligned (off : Nat)
  /-- A host access at offset 0x80 or beyond (R41). Raised by the host port. Safe. -/
  | outsideWindow (off : Nat)
  deriving DecidableEq, Repr

/-- No path flag set (R23: reset 0). -/
def Path.clear : Path := ⟨false, false, false⟩

/-- STATUS = 0 but for BUSY (R37). -/
def Status.clear : Status := ⟨false, false, false, .clear⟩

/-- The machine right after reset (R37, R181): STATUS is 0, INFLIGHT is empty, every data register is unwritten. The
0 held in `regs` is the model's (R22 gives none; log entry 3), and no read shows it. Nothing is pending (log entry 1). -/
def State.reset : State where
  regs     := .replicate 8 0#64
  written  := .replicate 8 false
  status   := .clear
  inflight := none
  host     := []
  replies  := []
  draws    := 0

end Sys2Proof.Machine
end

