-- ==== Sys2Proof/Machine/Flags.lean ====
section
/-! DEFINITION. STATUS as the host sees it: the word it reads (spec/10_state.md R23, R31), the write-one-to-clear
write (spec/20_memory.md R48), the fields a completion writes (R53) and the errors recorded (spec/60_exceptions.md
R160 to R164). -/

namespace Sys2Proof.Machine

/-- BUSY: 1 from a command's issue to its completion (R24), that is, exactly while INFLIGHT is not empty (R33). -/
def State.busy (s : State) : Bool := s.inflight.isSome

/-- The STATUS word, from bit 63 down: 57 zeros, SCLAMP, SINF, DLAST, OVR, ILL, DOM, BUSY (R23, R31). -/
def Status.word (st : Status) (busy : Bool) : Word :=
  0#57 ++ BitVec.ofBool st.path.sclamp ++ BitVec.ofBool st.path.sinf ++ BitVec.ofBool st.path.dlast
    ++ BitVec.ofBool st.ovr ++ BitVec.ofBool st.ill ++ BitVec.ofBool st.dom ++ BitVec.ofBool busy

/-- The current STATUS value (20_memory.md R47). -/
def State.statusWord (s : State) : Word := s.status.word s.busy

/-- A write of `v` to STATUS: each of DOM, ILL and OVR whose bit of `v` is 1 is cleared; nothing else changes (R48). -/
def Status.clearOnes (st : Status) (v : Word) : Status :=
  { st with
    dom := st.dom && !v.getLsbD 1
    ill := st.ill && !v.getLsbD 2
    ovr := st.ovr && !v.getLsbD 3 }

/-- A condition's code, its STATUS bit position (R161). -/
def ErrorCondition.code : ErrorCondition → Nat
  | .domainError    => 1
  | .illegalCommand => 2
  | .overrun        => 3

/-- `raise E`: the one operation that records an error, in STATUS bits and nowhere else (R160, R161): DomainError sets
DOM and DLAST (R164), IllegalCommand sets ILL (R162), Overrun sets OVR (R163). -/
def Status.raise (st : Status) (e : ErrorCondition) : Status :=
  match e with
  | .domainError    => { st with dom := true, path := { st.path with dlast := true } }
  | .illegalCommand => { st with ill := true }
  | .overrun        => { st with ovr := true }

/-- What a completion does to STATUS, BUSY apart: DLAST, SINF and SCLAMP are written, and DOM is set when the command
recorded a domain error (20_memory.md R53; R25, R28 to R30). -/
def Status.complete (st : Status) (p : Path) : Status :=
  let st' := { st with path := p }
  if p.dlast then st'.raise .domainError else st'

end Sys2Proof.Machine
end

