-- ==== Sys2Proof/Config.lean ====
section
/-! DEFINITION. What the spec leaves open: the three OPEN parameters of spec/00_scope.md R6, and the free values of
spec/93_implementation_defined.md U1, U2 and U4. None has a body, so no proof can learn a value. -/

namespace Sys2Proof

/-- The byte order of a bus bridge in front of the port (spec/92_eei_decisions.md, `BRIDGE_BYTE_ORDER`). -/
inductive ByteOrder where
  | little
  | big
  deriving DecidableEq, Repr, Inhabited

/-- FREE VALUE. The spec's `draw64()`: "any 64-bit value, under no law" (20_memory.md R43, R49). It is taken at the
counter `State.draws`, which moves on at every draw. Log entries 2 and 4. -/
opaque Config.freeWord : Nat → Word

/-- OPEN parameter `RSQNR_BASE`, the window's address on the host bus (R6, R40). No rule of the block depends on it;
log entry 12. -/
opaque Config.rsqnrBase : Nat

/-- What `LAT(op)` exceeds 1 by, for each opcode number (R6, R187). -/
opaque Config.latLessOne : BitVec 6 → Nat

/-- OPEN parameter `LAT(op)`: "at least 1, a function of the opcode only" (R6, R187). The model has no time, so
nothing depends on it; log entry 12. -/
def Config.lat (opc : BitVec 6) : Nat := Config.latLessOne opc + 1

/-- OPEN parameter `BRIDGE_BYTE_ORDER` (R6, R50): "it does not affect the block's own rules"; log entry 12. -/
opaque Config.bridgeByteOrder : ByteOrder

end Sys2Proof
end

