-- ==== Sys2Proof/Machine/Operands.lean ====
section
/-! DEFINITION. The data registers as operands (spec/10_state.md R20 to R22, spec/30_encoding.md R62, R64): reading,
writing, free values, and which register fields each command uses. -/

namespace Sys2Proof.Machine

/-- The content of data register `r` (R20). -/
def State.reg (s : State) (r : RegIx) : Word := s.regs[r.val]

/-- Register `r` has been written since reset (R22, R184). -/
def State.isWritten (s : State) (r : RegIx) : Bool := s.written[r.val]

/-- `R[r] <- v` (R8): the whole 64-bit pattern, with no conversion (R21, R62). -/
def State.writeReg (s : State) (r : RegIx) (v : Word) : State :=
  { s with regs := s.regs.set r.val v r.isLt, written := s.written.set r.val true r.isLt }

/-- `draw64()`: any 64-bit value, under no law (20_memory.md R43, R49; log entry 4). -/
def State.draw (s : State) : Word × State :=
  (Config.freeWord s.draws, { s with draws := s.draws + 1 })

/-- `R[r]` as a value (R8). A register that nothing has written since reset has unspecified content (R22), so reading
it gives a free value; the fault that R22 asks of a model is `strictStep`'s (log entry 2). -/
def State.readReg (s : State) (r : RegIx) : Word × State :=
  if s.isWritten r then (s.reg r, s) else s.draw

/-- The source fields a command uses, rs1 then rs2 (R64, R66). -/
def sources : Instr → Option RegIx × Option RegIx
  | .nop            => (none, none)
  | .sqrt _ a       => (some a, none)
  | .rseed _ a      => (some a, none)
  | .rest _ a       => (some a, none)
  | .nrstep _ a b   => (some a, some b)
  | .nr4 _ a b      => (some a, some b)
  | .nrmul _ a b    => (some a, some b)
  | .fclass _ a     => (some a, none)
  | .exts _ a       => (some a, none)
  | .exte _ a       => (some a, none)
  | .extm _ a       => (some a, none)
  | .inss _ a b     => (some a, some b)
  | .inse _ a b     => (some a, some b)
  | .insm _ a b     => (some a, some b)

/-- The destination field of a command; NOP has none (R64, R66, R150). -/
def dest : Instr → Option RegIx
  | .nop            => none
  | .sqrt rd _      => some rd
  | .rseed rd _     => some rd
  | .rest rd _      => some rd
  | .nrstep rd _ _  => some rd
  | .nr4 rd _ _     => some rd
  | .nrmul rd _ _   => some rd
  | .fclass rd _    => some rd
  | .exts rd _      => some rd
  | .exte rd _      => some rd
  | .extm rd _      => some rd
  | .inss rd _ _    => some rd
  | .inse rd _ _    => some rd
  | .insm rd _ _    => some rd

/-- The latching of one source at issue (20_memory.md R52). An unused operand is stored as 0 and never read
(R33 "b is absent"; log entry 7). -/
def latch (src : Option RegIx) (s : State) : Word × State :=
  match src with
  | none   => (0#64, s)
  | some r => s.readReg r

end Sys2Proof.Machine
end

