-- ==== Sys2Proof/Machine/Ops.lean ====
section
/-! DEFINITION. The shared operations of the block: recording an error (spec/60_exceptions.md R160), issue and
completion of a command (spec/20_memory.md R52, R53), and reset (spec/70_reset_and_hazards.md R180). There are no
traps, so there is no exception entry and no return from one (R160, R166). -/

namespace Sys2Proof.Machine

/-- `raise E(info)`: the recording step, which changes STATUS alone (R160). -/
def State.raise (s : State) (e : ErrorCondition) : State := { s with status := s.status.raise e }

/-- What `EXEC(op, a, b)` answers: the write of R[rd], none for NOP, and DLAST, SINF, SCLAMP (20_memory.md R53). -/
structure Answer where
  write : Option (RegIx × Word)
  path  : Path
  deriving DecidableEq, Repr

/-- The answer of a command with a result and no path flag set. -/
def Answer.value (rd : RegIx) (v : Word) : Answer := ⟨some (rd, v), .clear⟩

/-- `issue(op, rd, rs1, rs2)`: latch the sources, set BUSY (20_memory.md R52). -/
def State.issue (s : State) (i : Instr) : State :=
  let a := latch (sources i).1 s
  let b := latch (sources i).2 a.2
  { b.2 with inflight := some ⟨i, a.1, b.1⟩ }

/-- The write of a completion's result: R[rd], or nothing for NOP (20_memory.md R53). -/
def State.writeResult (s : State) (w : Option (RegIx × Word)) : State :=
  match w with
  | none         => s
  | some (rd, v) => s.writeReg rd v

/-- `complete()`: write the result and STATUS, empty INFLIGHT, clear BUSY, in one event (20_memory.md R53). -/
def State.complete (s : State) (ans : Answer) : State :=
  { s.writeResult ans.write with status := s.status.complete ans.path, inflight := none }

/-- A command's life is two events (R52, R53), and the meaning of `i` is the next of them: its issue where the block is
idle, and where a command is in flight its completion, by `exec_rule` on the latched operands alone (R36). The block
comes here in flight only with `i` the command in flight (`blockMove`; log entry 8). -/
def command (i : Instr) (exec_rule : Word → Word → Answer) (s : State) : Host.Outcome State Fault Refusal :=
  match s.inflight with
  | none   => .next (s.issue i)
  | some f => .next (s.complete (exec_rule f.a f.b))

/-- `reset()`: INFLIGHT emptied, STATUS 0, the data registers' contents unchanged but unwritten (R180). What the host
holds (pending moves, replies) and the model's draw counter are no part of the block (log entry 15). -/
def State.resetBlock (s : State) : State :=
  { s with inflight := none, status := .clear, written := .replicate 8 false }

end Sys2Proof.Machine
end

