-- ==== Sys2Proof/Machine/BitLayout.lean ====
section
/-! DEFINITION. The bit-layout family: FCLASS, EXTS, EXTE, EXTM, INSS, INSE, INSM (spec/41_bit_layout.md R100 to
R106). Pure bit operations: no rounding, no quieting. -/

namespace Sys2Proof.Machine

/-- The class code of FCLASS: 0 zero, 1 subnormal, 2 normal, 3 infinity, 4 NaN (R100). -/
def classCode (a : Word) : BitVec 3 :=
  if isZero a then 0#3
  else if isSubnormal a then 1#3
  else if isNormal a then 2#3
  else if isInf a then 3#3
  else 4#3

/-- FCLASS: bit 3 the sign, bits 2:0 the class (R100). -/
def fclassValue (a : Word) : Word := (BitVec.ofBool (sign64 a) ++ classCode a).setWidth 64

/-- EXTS: a[63] (R101). -/
def extsValue (a : Word) : Word := (BitVec.ofBool (sign64 a)).setWidth 64

/-- EXTE: a[62:52], raw (R102). -/
def exteValue (a : Word) : Word := (exp64 a).setWidth 64

/-- EXTM: a[51:0], no implicit bit (R103). -/
def extmValue (a : Word) : Word := (frac64 a).setWidth 64

/-- INSS: b[0] ++ a[62:0] (R104). -/
def inssValue (a b : Word) : Word := b.extractLsb' 0 1 ++ a.extractLsb' 0 63

/-- INSE: a[63] ++ b[10:0] ++ a[51:0] (R105). -/
def inseValue (a b : Word) : Word := a.extractLsb' 63 1 ++ b.extractLsb' 0 11 ++ a.extractLsb' 0 52

/-- INSM: a[63:52] ++ b[51:0] (R106). -/
def insmValue (a b : Word) : Word := a.extractLsb' 52 12 ++ b.extractLsb' 0 52

/-- FCLASS rd, rs1 (R100). -/
def execFclass (rd rs1 : RegIx) (s : State) : Host.Outcome State Fault Refusal :=
  command (.fclass rd rs1) (fun a _ => .value rd (fclassValue a)) s

/-- EXTS rd, rs1 (R101). -/
def execExts (rd rs1 : RegIx) (s : State) : Host.Outcome State Fault Refusal :=
  command (.exts rd rs1) (fun a _ => .value rd (extsValue a)) s

/-- EXTE rd, rs1 (R102). -/
def execExte (rd rs1 : RegIx) (s : State) : Host.Outcome State Fault Refusal :=
  command (.exte rd rs1) (fun a _ => .value rd (exteValue a)) s

/-- EXTM rd, rs1 (R103). -/
def execExtm (rd rs1 : RegIx) (s : State) : Host.Outcome State Fault Refusal :=
  command (.extm rd rs1) (fun a _ => .value rd (extmValue a)) s

/-- INSS rd, rs1, rs2 (R104). -/
def execInss (rd rs1 rs2 : RegIx) (s : State) : Host.Outcome State Fault Refusal :=
  command (.inss rd rs1 rs2) (fun a b => .value rd (inssValue a b)) s

/-- INSE rd, rs1, rs2 (R105). -/
def execInse (rd rs1 rs2 : RegIx) (s : State) : Host.Outcome State Fault Refusal :=
  command (.inse rd rs1 rs2) (fun a b => .value rd (inseValue a b)) s

/-- INSM rd, rs1, rs2 (R106). -/
def execInsm (rd rs1 rs2 : RegIx) (s : State) : Host.Outcome State Fault Refusal :=
  command (.insm rd rs1 rs2) (fun a b => .value rd (insmValue a b)) s

end Sys2Proof.Machine
end

