-- ==== Sys2Proof/Machine/Control.lean ====
section
/-! DEFINITION. The control family: NOP (spec/43_control.md R150). -/

namespace Sys2Proof.Machine

/-- `EXEC(NOP) = (no result, dom=0, sinf=0, sclamp=0)` (R150). -/
def nopAnswer : Answer := ⟨none, .clear⟩

/-- NOP (R150). -/
def execNop (s : State) : Host.Outcome State Fault Refusal :=
  command .nop (fun _ _ => nopAnswer) s

end Sys2Proof.Machine
end

