-- ==== Sys2Proof/Machine/Rsqrt.lean ====
section
/-! DEFINITION. The reciprocal square root estimator, the Newton-Raphson refiner and the square root: RSEED, REST,
NRSTEP, NR4, NRMUL, SQRT (spec/42_rsqrt_sqrt.md R120 to R125). -/

namespace Sys2Proof.Machine

/-- `NR_ITERATIONS` (R6, R132). -/
def nrIterations : Nat := 4

/-- `ODD_OFFSET` (R6). -/
def oddOffset : Nat := 0x200

/-- `EVEN_OFFSET` (R6). -/
def evenOffset : Nat := 0x1FF

/-- RSEED: the reciprocal in binary32, widened back (R120). -/
def rseedValue (a : Word) : Word := widen (fdiv32 one32 (narrow a))

/-- The field test of step 5: exponent all ones, mantissa zero, sign ignored (R121, R125; 90_conflicts.md C6). -/
def seedInfinite (a : Word) : Bool := exp64 a == 0x7FF#11 && frac64 a == 0#52

/-- The field test of step 6: exponent zero (R121; 90_conflicts.md C7). -/
def seedClamped (a : Word) : Bool := exp64 a == 0#11

/-- The exponent after the clamp of step 6 (R121). -/
def clampedExp (a : Word) : Nat := if exp64 a = 0#11 then 1 else (exp64 a).toNat

/-- REST's estimate, steps 6 and 7: halve the mantissa, halve the clamped exponent and add the offset of its parity,
and for an even exponent force the top mantissa bit after the shift (R121; 90_conflicts.md C1, C10). -/
def restValue (a : Word) : Word :=
  let e := clampedExp a
  let m := frac64 a >>> 1
  if e % 2 = 1 then join64 (sign64 a) (BitVec.ofNat 11 (e / 2 + oddOffset)) m
  else join64 (sign64 a) (BitVec.ofNat 11 (e / 2 + evenOffset)) (m ||| (1#52 <<< 51))

/-- NRSTEP: one Newton-Raphson iteration in five separately rounded primitives (R122, R93). -/
def nrstepValue (x xn : Word) : Word :=
  let h  := fmul64 half64 x
  let sq := fmul64 xn xn
  let p  := fmul64 h sq
  let d  := fsub64 threeHalf64 p
  fmul64 xn d

/-- `n` iterations of NRSTEP's value with the same x (R123). -/
def refine (x : Word) : Nat → Word → Word
  | 0, xn     => xn
  | n + 1, xn => refine x n (nrstepValue x xn)

/-- NR4: exactly four iterations (R123, R132). -/
def nr4Value (x xn : Word) : Word := refine x nrIterations xn

/-- NRMUL: xn first and x second (R124). -/
def nrmulValue (x xn : Word) : Word := fmul64 xn x

/-- SQRT's result, DLAST, SINF and SCLAMP, steps 1 to 9 (R125). -/
def sqrtRule (x : Word) : Word × Path :=
  if ltZero x then (negNan, ⟨true, false, false⟩)
  else if isZero x then (x, ⟨false, false, false⟩)
  else
    let seed := rseedValue x
    if seedInfinite seed then (x, ⟨false, true, false⟩)
    else (nrmulValue x (nr4Value x (restValue seed)), ⟨false, false, seedClamped seed⟩)

/-- SQRT rd, rs1 (R125). -/
def execSqrt (rd rs1 : RegIx) (s : State) : Host.Outcome State Fault Refusal :=
  command (.sqrt rd rs1) (fun a _ => ⟨some (rd, (sqrtRule a).1), (sqrtRule a).2⟩) s

/-- RSEED rd, rs1 (R120). -/
def execRseed (rd rs1 : RegIx) (s : State) : Host.Outcome State Fault Refusal :=
  command (.rseed rd rs1) (fun a _ => .value rd (rseedValue a)) s

/-- REST rd, rs1: the estimate, and SINF and SCLAMP as reports (R121). -/
def execRest (rd rs1 : RegIx) (s : State) : Host.Outcome State Fault Refusal :=
  command (.rest rd rs1) (fun a _ => ⟨some (rd, restValue a), ⟨false, seedInfinite a, seedClamped a⟩⟩) s

/-- NRSTEP rd, rs1, rs2: rs1 = x, rs2 = xn (R122). -/
def execNrstep (rd rs1 rs2 : RegIx) (s : State) : Host.Outcome State Fault Refusal :=
  command (.nrstep rd rs1 rs2) (fun a b => .value rd (nrstepValue a b)) s

/-- NR4 rd, rs1, rs2 (R123). -/
def execNr4 (rd rs1 rs2 : RegIx) (s : State) : Host.Outcome State Fault Refusal :=
  command (.nr4 rd rs1 rs2) (fun a b => .value rd (nr4Value a b)) s

/-- NRMUL rd, rs1, rs2 (R124). -/
def execNrmul (rd rs1 rs2 : RegIx) (s : State) : Host.Outcome State Fault Refusal :=
  command (.nrmul rd rs1 rs2) (fun a b => .value rd (nrmulValue a b)) s

end Sys2Proof.Machine
end

