-- ==== Sys2Proof/Machine/Dispatch.lean ====
section
/-! DEFINITION. One arm per command, each a direct call of its meaning. -/

namespace Sys2Proof.Machine

def exec (i : Instr) (s : State) : Host.Outcome State Fault Refusal :=
  match i with
  | .nop => Sys2Proof.Machine.execNop s
  | .sqrt rd rs1 => Sys2Proof.Machine.execSqrt rd rs1 s
  | .rseed rd rs1 => Sys2Proof.Machine.execRseed rd rs1 s
  | .rest rd rs1 => Sys2Proof.Machine.execRest rd rs1 s
  | .nrstep rd rs1 rs2 => Sys2Proof.Machine.execNrstep rd rs1 rs2 s
  | .nr4 rd rs1 rs2 => Sys2Proof.Machine.execNr4 rd rs1 rs2 s
  | .nrmul rd rs1 rs2 => Sys2Proof.Machine.execNrmul rd rs1 rs2 s
  | .fclass rd rs1 => Sys2Proof.Machine.execFclass rd rs1 s
  | .exts rd rs1 => Sys2Proof.Machine.execExts rd rs1 s
  | .exte rd rs1 => Sys2Proof.Machine.execExte rd rs1 s
  | .extm rd rs1 => Sys2Proof.Machine.execExtm rd rs1 s
  | .inss rd rs1 rs2 => Sys2Proof.Machine.execInss rd rs1 rs2 s
  | .inse rd rs1 rs2 => Sys2Proof.Machine.execInse rd rs1 rs2 s
  | .insm rd rs1 rs2 => Sys2Proof.Machine.execInsm rd rs1 rs2 s

end Sys2Proof.Machine
end

