-- ==== Sys2Proof/Machine/HostPort.lean ====
section
/-! DEFINITION. The host register port: the window's map (spec/20_memory.md R40 to R50), each host access, and the
next event of the single total order of accesses, completions and resets (R51, R53, R55). -/

namespace Sys2Proof.Machine

/-- The offset of CMD (R42). -/
def cmdOffset : Nat := 0x40

/-- The offset of STATUS (R42). -/
def statusOffset : Nat := 0x48

/-- The data register at an offset below 0x40: Ri sits at 8·i (R42). -/
def regAt (off : Nat) : RegIx := Fin.ofNat 8 (off / 8)

/-- The host bus address of an offset of the window (R40). -/
def busAddress (off : Nat) : Nat := Config.rsqnrBase + off

/-- The destination register of the command in flight, none where there is none and for NOP (R43). -/
def State.destInFlight (s : State) : Option RegIx := s.inflight.bind fun f => dest f.cmd

/-- The value a host read of data register `i` returns: a draw for the destination of the command in flight, else
R[i] (R43). -/
def State.hostReadReg (s : State) (i : RegIx) : Word × State :=
  if s.destInFlight = some i then s.draw else s.readReg i

/-- The value a host read at an admissible offset returns: R43 below 0x40, 0 at CMD (R46), the STATUS value (R47), a
draw at a reserved offset (R49). -/
def State.readAt (s : State) (off : Nat) : Word × State :=
  if off < cmdOffset then s.hostReadReg (regAt off)
  else if off = cmdOffset then (0#64, s)
  else if off = statusOffset then (s.statusWord, s)
  else s.draw

/-- The host gets a value back (R190; log entry 9). -/
def State.reply (s : State) (v : Word) : State := { s with replies := v :: s.replies }

/-- `HostRead(off)` at an admissible offset. -/
def hostRead (off : Nat) (s : State) : Host.Outcome State Fault Refusal :=
  .next ((s.readAt off).2.reply (s.readAt off).1)

/-- A write of a data register: refused with Overrun while BUSY (R44, R163). -/
def hostWriteReg (i : RegIx) (v : Word) (s : State) : Host.Outcome State Fault Refusal :=
  if s.busy then .next (s.raise .overrun) else .next (s.writeReg i v)

/-- A write of CMD: Overrun while BUSY, the value not decoded (R45, R163, R165); otherwise an illegal value raises
IllegalCommand (R162) and a legal one runs its command, which is then at its issue (R52). -/
def hostWriteCmd (v : Word) (s : State) : Host.Outcome State Fault Refusal :=
  if s.busy then .next (s.raise .overrun)
  else
    match decode v with
    | .error _ => .next (s.raise .illegalCommand)
    | .ok i    => exec i s

/-- `HostWrite(off, v)` at an admissible offset: R44, R45, R48, and no effect at a reserved offset (R49). -/
def hostWrite (off : Nat) (v : Word) (s : State) : Host.Outcome State Fault Refusal :=
  if off < cmdOffset then hostWriteReg (regAt off) v s
  else if off = cmdOffset then hostWriteCmd v s
  else if off = statusOffset then .next { s with status := s.status.clearOnes v }
  else .next s

/-- Why an access is outside the specification, if it is (R41; log entry 10). -/
def accessRefusal (off bits : Nat) : Option Refusal :=
  if bits < 64 then some (.narrowAccess bits)
  else if 64 < bits then some (.wideAccess bits)
  else if off % 8 ≠ 0 then some (.misaligned off)
  else if 0x80 ≤ off then some (.outsideWindow off)
  else none

/-- An access, or its refusal where R41 puts it outside the specification. -/
def guarded (off bits : Nat) (access : State → Host.Outcome State Fault Refusal) (s : State) :
    Host.Outcome State Fault Refusal :=
  match accessRefusal off bits with
  | some r => .refused r
  | none   => access s

/-- One move of the host or the platform (R190). -/
def hostMove (m : HostMove) (s : State) : Host.Outcome State Fault Refusal :=
  match m with
  | .read off bits    => guarded off bits (hostRead off) s
  | .write off bits v => guarded off bits (hostWrite off v) s
  | .reset            => .next s.resetBlock

/-- The block's own move: the completion of the command in flight; where there is none the block waits (R53, R182). -/
def blockMove (s : State) : Host.Outcome State Fault Refusal :=
  match s.inflight with
  | some f => exec f.cmd s
  | none   => .next s

/-- The next event is the block's: nothing of the host is pending, or a command is in flight and the pending move is
ordered after its completion (R51, R53; log entry 5). -/
def State.blockNext (s : State) : Bool :=
  match s.host with
  | []     => true
  | p :: _ => s.busy && p.afterCompletion

/-- One event of the total order of R51 and R55. -/
def nextEvent (s : State) : Host.Outcome State Fault Refusal :=
  if s.blockNext then blockMove s
  else
    match s.host with
    | []        => .next s
    | p :: rest => hostMove p.move { s with host := rest }

/-- The data registers whose content the next event reads: the sources of a command at its issue, and the register of
a host read, but for the destination in flight, whose read is a draw (R22, R43, R52, R183). -/
def State.nextReads (s : State) : List RegIx :=
  if s.blockNext then []
  else
    match s.host with
    | [] => []
    | p :: _ =>
      match p.move with
      | .reset => []
      | .read off bits =>
        if admissible off bits && decide (off < cmdOffset) && decide (s.destInFlight ≠ some (regAt off)) then
          [regAt off]
        else []
      | .write off bits v =>
        if admissible off bits && decide (off = cmdOffset) && !s.busy then
          match decode v with
          | .ok i    => (sources i).1.toList ++ (sources i).2.toList
          | .error _ => []
        else []

end Sys2Proof.Machine
end

