-- ==== Sys2Proof/Machine/Step.lean ====
section
/-! DEFINITION. One step of the machine: the next event of the order of spec/20_memory.md R51. The block fetches nothing
(R57): a command reaches it as a host write of CMD, so `withFetchWord` makes that write the next move (log entry 1). -/

namespace Sys2Proof.Machine

/-- One step: a next state, a fault (never), or a refusal (an access of R41). -/
def step (s : State) : Host.Outcome State Fault Refusal := nextEvent s

/-- `s` with the host about to write the table word `w` of `nbits` bits to CMD, and the block idle so that the write
issues the command (R45). -/
def State.withFetchWord (s : State) (nbits w : Nat) : State :=
  { s with
    inflight := none
    host := ⟨.write cmdOffset 64 (tableValue nbits w), false⟩ :: s.host }

end Sys2Proof.Machine
end

