-- ==== Sys2Proof/Safety.lean ====
section
/-! DEFINITION. The terms claims use: the launch premises of spec/70_reset_and_hazards.md R184, what a command's
completion and the next host move do, the strict step that stops where spec/10_state.md R22 makes a model fault, and the
fields of a pattern as numbers (spec/40_fp_primitives.md R80). -/

namespace Sys2Proof

open Sys2Proof.Machine

/-! ### Premises -/

/-- **Idle** of R184: BUSY = 0 and INFLIGHT is empty. -/
def Idle (s : State) : Prop := s.inflight = none

/-- **NoFault** of R184: DOM = ILL = OVR = 0. -/
def NoFault (s : State) : Prop := s.status.dom = false ∧ s.status.ill = false ∧ s.status.ovr = false

/-- **Written(S)** of R184, for one register of S. -/
def Written (s : State) (r : RegIx) : Prop := s.isWritten r = true

/-- **Written(S)** of R184 whole: the registers of `S` have a value, and every other register is unwritten. -/
def WrittenExactly (S : List RegIx) (s : State) : Prop := ∀ r, Written s r ↔ r ∈ S

/-- The clean-entry state of R184 in which a run of a host script starts: Idle, NoFault and Written(S). The programs P1 to
P6 of 95_test_vectors.md start with S empty. -/
def CleanEntry (S : List RegIx) (s : State) : Prop := Idle s ∧ NoFault s ∧ WrittenExactly S s

/-- Both source fields that `i` uses name written registers, as R183 asks of the host. -/
def SourcesWritten (s : State) (i : Instr) : Prop :=
  (∀ r, (sources i).1 = some r → Written s r) ∧ (∀ r, (sources i).2 = some r → Written s r)

/-- The next event of `s` is the move `m` of the host or the platform; `u` is `s` with that move taken off the list.
A command in flight has its completion ordered after the move (20_memory.md R51, R53). -/
def NextMove (s : State) (m : HostMove) (u : State) : Prop :=
  ∃ late rest, s.host = ⟨m, late⟩ :: rest ∧ (s.busy = true → late = false) ∧ u = { s with host := rest }

/-- Every pending move is an access inside the specification: none is refused and none resets the block (R41). -/
def AccessesOnly (s : State) : Prop :=
  ∀ p ∈ s.host, match p.move with
    | .read off bits    => admissible off bits = true
    | .write off bits _ => admissible off bits = true
    | .reset            => False

/-- Every pending move is one of R190's table: an access inside the specification, or a reset. -/
def Served (s : State) : Prop :=
  ∀ p ∈ s.host, match p.move with
    | .read off bits    => admissible off bits = true
    | .write off bits _ => admissible off bits = true
    | .reset            => True

/-- At most one of DLAST, SINF and SCLAMP is 1 (42_rsqrt_sqrt.md R125). -/
def AtMostOnePathFlag (p : Path) : Prop :=
  (p.dlast && p.sinf) = false ∧ (p.dlast && p.sclamp) = false ∧ (p.sinf && p.sclamp) = false

/-! ### What a command does -/

/-- A whole command from an idle block: its issue and then its completion, with no host access between (R53 "it may be
zero"). -/
def issueAndComplete (i : Instr) (s : State) : Host.Outcome State Fault Refusal :=
  match exec i s with
  | .next t    => exec i t
  | .fault r   => .fault r
  | .refused r => .refused r

/-- From `s` to `t` the result `v` is written to `R[rd]`, `p` to DLAST, SINF and SCLAMP, DOM is set where DLAST is 1, and
INFLIGHT is empty; nothing else changes (20_memory.md R53). -/
def Completed (s t : State) (rd : RegIx) (v : Word) (p : Path) : Prop :=
  t.reg rd = v ∧ t.isWritten rd = true ∧
  (∀ r, r ≠ rd → t.reg r = s.reg r ∧ t.isWritten r = s.isWritten r) ∧
  t.status = ⟨s.status.dom || p.dlast, s.status.ill, s.status.ovr, p⟩ ∧ t.inflight = none ∧
  t.host = s.host ∧ t.replies = s.replies ∧ t.draws = s.draws

/-- The command `i`: its word selects `row` of the opcode map; with `i` in flight on the operands `a` and `b` its meaning
is the completion with the result `res a b` and the path fields `path a b`; and from an idle block whose sources `ra` and
`rb` are written, issue and completion together give that of `R[ra]` and `R[rb]` (a command of one source has `rb = ra`
and does not use it). -/
def CompletesWith (row : OpcodeRow) (i : Instr) (rd ra rb : RegIx) (res : Word → Word → Word)
    (path : Word → Word → Path) : Prop :=
  row.selects (encode i) = true ∧
  (∀ (s : State) (a b : Word), s.inflight = some ⟨i, a, b⟩ →
    ∃ t, exec i s = .next t ∧ Completed s t rd (res a b) (path a b)) ∧
  ∀ s : State, Idle s → Written s ra → Written s rb →
    ∃ t, issueAndComplete i s = .next t ∧ Completed s t rd (res (s.reg ra) (s.reg rb)) (path (s.reg ra) (s.reg rb))

/-- `n` whole commands `i`, one after the other. -/
def repeatCommand (i : Instr) : Nat → State → Host.Outcome State Fault Refusal
  | 0, s     => .next s
  | n + 1, s =>
    match issueAndComplete i s with
    | .next t    => repeatCommand i n t
    | .fault r   => .fault r
    | .refused r => .refused r

/-! ### The end of a run (70_reset_and_hazards.md R189) -/

/-- From `s` to `t` the command in flight has ended: by its completion, or by a reset that aborts it (R189). -/
def CommandEnds (s t : State) : Prop := step s = .next t ∧ s.busy = true ∧ t.busy = false

/-- A run has ended: every move of the script has been made (log entry 11) and BUSY = 0 (R189). -/
def RunEnded (s : State) : Prop := s.host = [] ∧ s.busy = false

/-- What a run ends in: STATUS and, of R0 to R7, the values of the written registers; an unwritten register has none
(R189). -/
structure EndState where
  regs   : Vector (Option Word) 8
  status : Word
  deriving DecidableEq, Repr

/-- The value that a register has at the end of a run, none where it is unwritten (R189). -/
def endReg (s : State) (r : RegIx) : Option Word := if s.isWritten r then some (s.reg r) else none

/-- The end state that `s` shows (R189). -/
def endState (s : State) : EndState := ⟨.ofFn (endReg s), s.statusWord⟩

/-- The run from `s` ends, in the end state `e` (R189). -/
def RunEndsIn (s : State) (e : EndState) : Prop :=
  ∃ k t, Host.Core.run core k s = .next t ∧ RunEnded t ∧ endState t = e

/-! ### The strict step -/

/-- The step with R22's fault: it stops before an event that would read a register unwritten since reset, and is
`step` otherwise (R22, R183; log entry 2). -/
def strictStep (s : State) : Host.Outcome State Fault Refusal :=
  match s.nextReads.find? (fun r => !s.isWritten r) with
  | some r => .fault (.unwrittenRead r)
  | none   => step s

/-! ### A pattern's fields as numbers -/

/-- Bit 63 of a pattern, as a number (R80). -/
def signNat (b : Word) : Nat := b.toNat / 2 ^ 63

/-- Bit 31 of a binary32 pattern, as a number (R81). -/
def signNat32 (f : Word32) : Nat := f.toNat / 2 ^ 31

/-- Bits 30:23 of a binary32 pattern, as a number (R81). -/
def expNat32 (f : Word32) : Nat := f.toNat / 2 ^ 23 % 2 ^ 8

/-- Bits 22:0 of a binary32 pattern, as a number (R81). -/
def fracNat32 (f : Word32) : Nat := f.toNat % 2 ^ 23

/-- A binary64 pattern with a rational value: neither a NaN nor an infinity (R80). -/
def Finite64 (b : Word) : Prop := isNan b = false ∧ isInf b = false

/-- A binary32 pattern with a rational value: neither a NaN nor an infinity (R81). -/
def Finite32 (f : Word32) : Prop := isNan32 f = false ∧ isInf32 f = false

/-- Bits 62:52, the biased exponent, as a number (R80). -/
def expNat (b : Word) : Nat := b.toNat / 2 ^ 52 % 2 ^ 11

/-- Bits 51:0, the mantissa, as a number (R80). -/
def fracNat (b : Word) : Nat := b.toNat % 2 ^ 52

/-- The value of finite fields of format F (R80, R81). -/
def fieldsValue (F : Format) (f : Fields) : Rat := finiteValue F f.sign f.exp f.frac

/-- Fields that a finite pattern of format F can hold. -/
def FiniteFields (F : Format) (f : Fields) : Prop := f.exp < 2 ^ F.expBits - 1 ∧ f.frac < 2 ^ F.fracBits

end Sys2Proof
end

