-- ==== Sys2Proof/Certificates/Slice0/Obligations.lean ====
section
/-! DEFINITION. The statements for the provers, each a proposition about the machine; OBLIGATIONS.json gives each one its
rule of spec/. -/

open Sys2Proof Sys2Proof.Machine

/-! ### Encoding -/

/-- Decoding the value that presents a command gives the command back, for every command and every operand. -/
def Obligations.DecodeOfEncodeIsTheCommand : Prop :=
  ∀ i : Instr, decode (encodeValue i) = .ok i

/-- R67, by the numbers of the fields: legal are exactly the values with no reserved bit set whose OPC has a row and
whose unused register fields are 0; they are the values the decoder reads a command from; an illegal value raises
IllegalCommand and is not executed. -/
def Obligations.LegalExactlyByFields : Prop :=
  (∀ v : Word, legal v = true ↔
    v.toNat < 2 ^ 19 ∧ v.toNat / 2 ^ 6 % 4 = 0 ∧ v.toNat / 2 ^ 11 % 2 = 0 ∧ v.toNat / 2 ^ 15 % 2 = 0 ∧
    (v.toNat % 2 ^ 6 = 0x00 ∧ v.toNat / 2 ^ 8 = 0 ∨
     v.toNat % 2 ^ 6 ∈ [0x01, 0x02, 0x03, 0x08, 0x09, 0x0A, 0x0B] ∧ v.toNat / 2 ^ 16 = 0 ∨
     v.toNat % 2 ^ 6 ∈ [0x04, 0x05, 0x06, 0x0D, 0x0E, 0x0F])) ∧
  (∀ v : Word, legal v = true ↔ ∃ i, decode v = .ok i) ∧
  ∀ s u v, NextMove s (.write 0x40 64 v) u → Idle s → legal v = false →
    step s = .next { u with status := { s.status with ill := true } }

/-- A command has one value: whatever decodes to it is its encoding, so no bit of a legal value is dropped. -/
def Obligations.DecodedValueIsTheEncoding : Prop :=
  ∀ (v : Word) (i : Instr), decode v = .ok i → v = encodeValue i

/-- No command word selects two rows of the opcode map. -/
def Obligations.NoWordSelectsTwoRows : Prop :=
  ∀ (w : Word32), ∀ r₁ ∈ opcodeMap, ∀ r₂ ∈ opcodeMap, r₁.selects w = true → r₂.selects w = true → r₁ = r₂

/-- Words written out in 30_encoding.md R70 and in the programs of 95_test_vectors.md. -/
def Obligations.SpecWordsDecode : Prop :=
  decode 0x00000101#64 = .ok (.sqrt 1 0) ∧ decode 0x00020305#64 = .ok (.nr4 3 0 2) ∧
  decode 0x00000108#64 = .ok (.fclass 1 0) ∧ decode 0x00002303#64 = .ok (.rest 3 2) ∧
  decode 0x0002030E#64 = .ok (.inse 3 0 2) ∧ decode 0x00000000#64 = .ok .nop

/-! ### Reset and the step -/

/-- R37: State.reset, and a reset at any point. A register left unspecified is one that is not written. -/
def Obligations.ResetEmptiesTheBlock : Prop :=
  (State.reset.statusWord = 0#64 ∧ State.reset.inflight = none ∧ ∀ r, State.reset.isWritten r = false) ∧
  ∀ s u, NextMove s .reset u →
    ∃ t, step s = .next t ∧ t.statusWord = 0#64 ∧ t.inflight = none ∧ ∀ r, t.isWritten r = false

/-- A CMD write of a legal value at an idle block runs the decoded command. -/
def Obligations.StepRunsTheDecodedCommand : Prop :=
  ∀ s u v i, NextMove s (.write 0x40 64 v) u → Idle s → decode v = .ok i → step s = exec i u

/-- The completion of the command in flight is the next event where no host move is pending, and where the pending move
is ordered after it. -/
def Obligations.StepCompletesTheCommandInFlight : Prop :=
  ∀ s f, s.inflight = some f → (∀ p rest, s.host = p :: rest → p.afterCompletion = true) → step s = exec f.cmd s

/-- R182 and R189: after reset the block is idle and waits; a run that has ended stays as it is (log entry 5), so it ends
in one end state; and that end state is what the host reads. -/
def Obligations.IdleBlockWaits : Prop :=
  State.reset.busy = false ∧ (∀ s, RunEnded s → step s = .next s) ∧
  (∀ s e e', RunEndsIn s e → RunEndsIn s e' → e = e') ∧
  ∀ s late, RunEnded s →
    (∀ (r : RegIx) v, (endState s).regs[r.val] = some v →
      step { s with host := [⟨.read (8 * r.val) 64, late⟩] } = .next { s with replies := v :: s.replies }) ∧
    step { s with host := [⟨.read 0x48 64, late⟩] } = .next { s with replies := (endState s).status :: s.replies }

/-! ### Issue -/

/-- R52, for every command: at an idle block whose sources are written, issue latches them and sets BUSY; nothing else
changes. -/
def Obligations.IssueLatchesTheSources : Prop :=
  ∀ i s, Idle s → SourcesWritten s i →
    ∃ t a b, exec i s = .next t ∧ t = { s with inflight := some ⟨i, a, b⟩ } ∧ t.busy = true ∧
      (∀ r, (sources i).1 = some r → a = s.reg r) ∧ (∀ r, (sources i).2 = some r → b = s.reg r)

/-- The model's choice for R22 (log entry 2): an unwritten source is latched as a free value, and the command issues. -/
def Obligations.IssueOfAnUnwrittenSourceDraws : Prop :=
  ∀ i s, Idle s →
    ∃ a b n, exec i s = .next { s with inflight := some ⟨i, a, b⟩, draws := n } ∧ s.draws ≤ n ∧ n ≤ s.draws + 2 ∧
      (∀ r, (sources i).1 = some r → ¬ Written s r → a = Config.freeWord s.draws) ∧
      (∀ r, (sources i).1 = some r → Written s r → a = s.reg r) ∧
      (∀ r, (sources i).2 = some r → ¬ Written s r → ∃ k, s.draws ≤ k ∧ k < n ∧ b = Config.freeWord k) ∧
      (∀ r, (sources i).2 = some r → Written s r → b = s.reg r)

/-! ### Completion, command by command -/

/-- R150: the all-zero word; issue sets BUSY and reads nothing; completion clears the path fields and changes nothing
else. -/
def Obligations.NopCompletes : Prop :=
  encode .nop = 0#32 ∧ (⟨"NOP", 0x00000000#32, 0xFFFFFFFF#32⟩ : OpcodeRow).selects (encode .nop) = true ∧
  (∀ s, Idle s → ∃ t a b, exec .nop s = .next t ∧ t = { s with inflight := some ⟨.nop, a, b⟩ } ∧ t.busy = true) ∧
  ∀ s a b, s.inflight = some ⟨.nop, a, b⟩ →
    exec .nop s = .next { s with
      status := ⟨s.status.dom, s.status.ill, s.status.ovr, ⟨false, false, false⟩⟩, inflight := none }

/-- R100: bit 3 the sign, bits 2:0 the class, by the fields as numbers. -/
def Obligations.FclassCompletes : Prop :=
  ∀ rd rs1, CompletesWith ⟨"FCLASS", 0x00000008#32, 0xFFFF88FF#32⟩ (.fclass rd rs1) rd rs1 rs1
    (fun a _ => BitVec.ofNat 64 (8 * signNat a +
      (if expNat a = 0 then (if fracNat a = 0 then 0 else 1)
       else if expNat a = 0x7FF then (if fracNat a = 0 then 3 else 4)
       else 2)))
    (fun _ _ => ⟨false, false, false⟩)

/-- R101, R102, R103: the sign, the raw biased exponent, the mantissa. -/
def Obligations.ExtractCommandsComplete : Prop :=
  ∀ rd rs1,
    CompletesWith ⟨"EXTS", 0x00000009#32, 0xFFFF88FF#32⟩ (.exts rd rs1) rd rs1 rs1
      (fun a _ => BitVec.ofNat 64 (signNat a)) (fun _ _ => ⟨false, false, false⟩) ∧
    CompletesWith ⟨"EXTE", 0x0000000A#32, 0xFFFF88FF#32⟩ (.exte rd rs1) rd rs1 rs1
      (fun a _ => BitVec.ofNat 64 (expNat a)) (fun _ _ => ⟨false, false, false⟩) ∧
    CompletesWith ⟨"EXTM", 0x0000000B#32, 0xFFFF88FF#32⟩ (.extm rd rs1) rd rs1 rs1
      (fun a _ => BitVec.ofNat 64 (fracNat a)) (fun _ _ => ⟨false, false, false⟩)

/-- R104, R105, R106: one field of a replaced; the bits of b above the field are ignored. -/
def Obligations.InsertCommandsComplete : Prop :=
  ∀ rd rs1 rs2,
    CompletesWith ⟨"INSS", 0x0000000D#32, 0xFFF888FF#32⟩ (.inss rd rs1 rs2) rd rs1 rs2
      (fun a b => BitVec.ofNat 64 (b.toNat % 2 * 2 ^ 63 + a.toNat % 2 ^ 63)) (fun _ _ => ⟨false, false, false⟩) ∧
    CompletesWith ⟨"INSE", 0x0000000E#32, 0xFFF888FF#32⟩ (.inse rd rs1 rs2) rd rs1 rs2
      (fun a b => BitVec.ofNat 64 (signNat a * 2 ^ 63 + b.toNat % 2 ^ 11 * 2 ^ 52 + fracNat a))
      (fun _ _ => ⟨false, false, false⟩) ∧
    CompletesWith ⟨"INSM", 0x0000000F#32, 0xFFF888FF#32⟩ (.insm rd rs1 rs2) rd rs1 rs2
      (fun a b => BitVec.ofNat 64 (signNat a * 2 ^ 63 + expNat a * 2 ^ 52 + fracNat b))
      (fun _ _ => ⟨false, false, false⟩)

/-- R120. -/
def Obligations.RseedCompletes : Prop :=
  ∀ rd rs1, CompletesWith ⟨"RSEED", 0x00000002#32, 0xFFFF88FF#32⟩ (.rseed rd rs1) rd rs1 rs1
    (fun a _ => widen (fdiv32 0x3F800000#32 (narrow a))) (fun _ _ => ⟨false, false, false⟩)

/-- R121, on the fields as numbers: clamp, halve, add the offset of the parity, force the top mantissa bit if even. -/
def Obligations.RestCompletes : Prop :=
  ∀ rd rs1, CompletesWith ⟨"REST", 0x00000003#32, 0xFFFF88FF#32⟩ (.rest rd rs1) rd rs1 rs1
    (fun a _ =>
      let e := if expNat a = 0 then 1 else expNat a
      BitVec.ofNat 64 (signNat a * 2 ^ 63 +
        (if e % 2 = 1 then (e / 2 + 0x200) * 2 ^ 52 + fracNat a / 2
         else (e / 2 + 0x1FF) * 2 ^ 52 + (2 ^ 51 + fracNat a / 2))))
    (fun a _ => ⟨false, decide (expNat a = 0x7FF ∧ fracNat a = 0), decide (expNat a = 0)⟩)

/-- R122, R123, R124: five separately rounded primitives; exactly four iterations; xn first and x second. -/
def Obligations.RefinerCommandsComplete : Prop :=
  ∀ rd rs1 rs2,
    CompletesWith ⟨"NRSTEP", 0x00000004#32, 0xFFF888FF#32⟩ (.nrstep rd rs1 rs2) rd rs1 rs2
      (fun x xn => fmul64 xn (fsub64 0x3FF8000000000000#64
        (fmul64 (fmul64 0x3FE0000000000000#64 x) (fmul64 xn xn)))) (fun _ _ => ⟨false, false, false⟩) ∧
    CompletesWith ⟨"NR4", 0x00000005#32, 0xFFF888FF#32⟩ (.nr4 rd rs1 rs2) rd rs1 rs2
      (fun x xn => nrstepValue x (nrstepValue x (nrstepValue x (nrstepValue x xn))))
      (fun _ _ => ⟨false, false, false⟩) ∧
    CompletesWith ⟨"NRMUL", 0x00000006#32, 0xFFF888FF#32⟩ (.nrmul rd rs1 rs2) rd rs1 rs2
      (fun x xn => fmul64 xn x) (fun _ _ => ⟨false, false, false⟩)

/-- R125, steps 1 to 9. -/
def Obligations.SqrtCompletes : Prop :=
  ∀ rd rs1, CompletesWith ⟨"SQRT", 0x00000001#32, 0xFFFF88FF#32⟩ (.sqrt rd rs1) rd rs1 rs1
    (fun x _ =>
      let seed := widen (fdiv32 0x3F800000#32 (narrow x))
      let xn := restValue seed
      if ltZero x = true then 0xFFF8000000000000#64
      else if isZero x = true then x
      else if expNat seed = 0x7FF ∧ fracNat seed = 0 then x
      else fmul64 (nrstepValue x (nrstepValue x (nrstepValue x (nrstepValue x xn)))) x)
    (fun x _ =>
      let seed := widen (fdiv32 0x3F800000#32 (narrow x))
      if ltZero x = true then ⟨true, false, false⟩
      else if isZero x = true then ⟨false, false, false⟩
      else if expNat seed = 0x7FF ∧ fracNat seed = 0 then ⟨false, true, false⟩
      else ⟨false, false, decide (expNat seed = 0)⟩)

/-! ### What commands change, and what they depend on -/

/-- What a meaning leaves unchanged, over all commands and both events: every data register but the destination, ILL and
OVR, the host's list and replies; DOM is never cleared. At issue no register and no stored STATUS field changes. -/
def Obligations.CommandFrame : Prop :=
  ∀ i s t, exec i s = .next t →
    t.host = s.host ∧ t.replies = s.replies ∧ t.status.ill = s.status.ill ∧ t.status.ovr = s.status.ovr ∧
    (s.status.dom = true → t.status.dom = true) ∧
    (∀ r, dest i ≠ some r → t.reg r = s.reg r ∧ t.isWritten r = s.isWritten r) ∧
    (Idle s → t.regs = s.regs ∧ t.written = s.written ∧ t.status = s.status)

/-- R36: a completion's result and path fields depend on the opcode and the latched operands alone, so two commands of one
opcode agree whatever registers they name; and R[rd], BUSY, DOM, DLAST, SINF and SCLAMP are the only state it changes. -/
def Obligations.CompletionIsPure : Prop :=
  ∀ (i j : Instr) f g s₁ s₂ t₁ t₂, i.opc = j.opc → f.a = g.a → f.b = g.b →
    s₁.inflight = some f → s₂.inflight = some g → exec i s₁ = .next t₁ → exec j s₂ = .next t₂ →
    t₁.status.path = t₂.status.path ∧
    (∀ rd rd', dest i = some rd → dest j = some rd' → t₁.reg rd = t₂.reg rd') ∧
    (∀ r, dest i ≠ some r → t₁.reg r = s₁.reg r ∧ t₁.isWritten r = s₁.isWritten r) ∧
    t₁ = { s₁ with
      regs := t₁.regs, written := t₁.written, inflight := none
      status := { s₁.status with dom := t₁.status.dom, path := t₁.status.path } }

/-- Every command's meaning answers a next state in every state, total in its operands. That the issue with an unwritten
source is among them is the model's choice (log entry 2, where R22 makes a model fault), and so is what exec means with
another command in flight (log entry 8), which no step asks. -/
def Obligations.EveryCommandAnswersNext : Prop :=
  ∀ i s, ∃ t, exec i s = .next t

/-- NR4 is four NRSTEPs with the same x, as whole commands of the machine, an inference that R123 marks as its own: the
first reads xn and leaves its result in rd, the other three read rd. With rd = rs1 the first NRSTEP would overwrite x, so
the four would not have the same rs1 value. -/
def Obligations.Nr4IsFourNrsteps : Prop :=
  ∀ (rd x xn : RegIx) (s : State), x ≠ rd → Idle s → Written s x → Written s xn →
    ∃ t, issueAndComplete (.nrstep rd x xn) s = .next t ∧
      issueAndComplete (.nr4 rd x xn) s = repeatCommand (.nrstep rd x rd) 3 t

/-! ### Values -/

/-- R82: the predicates by the fields as numbers, in both formats, and exactly one of the five holds. -/
def Obligations.ExactlyOneClass : Prop :=
  (∀ b : Word,
    (isZero b = true ↔ expNat b = 0 ∧ fracNat b = 0) ∧ (isSubnormal b = true ↔ expNat b = 0 ∧ fracNat b ≠ 0) ∧
    (isNormal b = true ↔ 1 ≤ expNat b ∧ expNat b ≤ 0x7FE) ∧ (isInf b = true ↔ expNat b = 0x7FF ∧ fracNat b = 0) ∧
    (isNan b = true ↔ expNat b = 0x7FF ∧ fracNat b ≠ 0) ∧
    ([isZero b, isSubnormal b, isNormal b, isInf b, isNan b].filter id).length = 1) ∧
  ∀ f : Word32,
    (isZero32 f = true ↔ f.toNat / 2 ^ 23 % 2 ^ 8 = 0 ∧ f.toNat % 2 ^ 23 = 0) ∧
    (isInf32 f = true ↔ f.toNat / 2 ^ 23 % 2 ^ 8 = 0xFF ∧ f.toNat % 2 ^ 23 = 0) ∧
    (isNan32 f = true ↔ f.toNat / 2 ^ 23 % 2 ^ 8 = 0xFF ∧ f.toNat % 2 ^ 23 ≠ 0)

/-- R92. -/
def Obligations.ZeroTestHoldsOfTwoPatterns : Prop :=
  ∀ b : Word, isZero b = true ↔ b = 0x0000000000000000#64 ∨ b = 0x8000000000000000#64

/-- R84, R86, R87 and R88: NaN operands come first and are made quiet; the invalid operations give the default NaN; and on
every other operands the sign and the value of product, difference and quotient. -/
def Obligations.PrimitivesByOperandClass : Prop :=
  ((∀ a b : Word, isNan a = true →
      fmul64 a b = a ||| 0x0008000000000000#64 ∧ fsub64 a b = a ||| 0x0008000000000000#64) ∧
   (∀ a b : Word, isNan a = false → isNan b = true →
      fmul64 a b = b ||| 0x0008000000000000#64 ∧ fsub64 a b = b ||| 0x0008000000000000#64) ∧
   (∀ a b : Word32, isNan32 a = true → fdiv32 a b = a ||| 0x00400000#32) ∧
   (∀ a b : Word32, isNan32 a = false → isNan32 b = true → fdiv32 a b = b ||| 0x00400000#32) ∧
   (∀ a b : Word, isZero a = true → isInf b = true →
      fmul64 a b = 0x7FF8000000000000#64 ∧ fmul64 b a = 0x7FF8000000000000#64) ∧
   (∀ a b : Word, isInf a = true → isInf b = true → sign64 a = sign64 b → fsub64 a b = 0x7FF8000000000000#64) ∧
   (∀ a b : Word32, (isZero32 a = true ∧ isZero32 b = true) ∨ (isInf32 a = true ∧ isInf32 b = true) →
      fdiv32 a b = 0x7FC00000#32)) ∧
  (∀ a b : Word, isNan a = false → isNan b = false →
    (isInf a = true ∨ isInf b = true → isZero a = false → isZero b = false →
      fmul64 a b = if signNat a = signNat b then 0x7FF0000000000000#64 else 0xFFF0000000000000#64) ∧
    (Finite64 a → Finite64 b → fmul64 a b = round64 (val64 a * val64 b) (decide (signNat a ≠ signNat b))) ∧
    (Finite64 a → Finite64 b → isZero a = true ∨ isZero b = true →
      fmul64 a b = if signNat a = signNat b then 0x0000000000000000#64 else 0x8000000000000000#64)) ∧
  (∀ a b : Word, isNan a = false → isNan b = false →
    (isInf a = true → isInf b = true → signNat a ≠ signNat b → fsub64 a b = a) ∧
    (isInf a = true → isInf b = false → fsub64 a b = a) ∧
    (isInf a = false → isInf b = true →
      fsub64 a b = if signNat b = 1 then 0x7FF0000000000000#64 else 0xFFF0000000000000#64) ∧
    (isZero a = true → isZero b = true →
      fsub64 a b = if signNat a = 1 ∧ signNat b = 0 then 0x8000000000000000#64 else 0x0000000000000000#64) ∧
    (Finite64 a → Finite64 b → isZero a = false ∨ isZero b = false →
      fsub64 a b = round64 (val64 a - val64 b) false)) ∧
  (∀ a b : Word32, isNan32 a = false → isNan32 b = false →
    (isInf32 a = true → isInf32 b = false →
      fdiv32 a b = if signNat32 a = signNat32 b then 0x7F800000#32 else 0xFF800000#32) ∧
    (isInf32 a = false → isInf32 b = true →
      fdiv32 a b = if signNat32 a = signNat32 b then 0x00000000#32 else 0x80000000#32) ∧
    (Finite32 a → isZero32 a = false → isZero32 b = true →
      fdiv32 a b = if signNat32 a = signNat32 b then 0x7F800000#32 else 0xFF800000#32) ∧
    (Finite32 a → Finite32 b → isZero32 b = false →
      fdiv32 a b = round32 (val32 a / val32 b) (decide (signNat32 a ≠ signNat32 b))))

/-- R91: the patterns below zero, as an interval. -/
def Obligations.LessThanZeroInterval : Prop :=
  ∀ b : Word, ltZero b = true ↔ 0x8000000000000000 < b.toNat ∧ b.toNat ≤ 0xFFF0000000000000

/-- R107, an inference the spec marks as its own: compose(extract(x)) = x; each insert is read back; each leaves the
other two fields. -/
def Obligations.FieldViewLaws : Prop :=
  ∀ x y v : Word,
    inssValue (inseValue (insmValue y (extmValue x)) (exteValue x)) (extsValue x) = x ∧
    extsValue (inssValue x v) = BitVec.ofNat 64 (v.toNat % 2) ∧
    exteValue (inseValue x v) = BitVec.ofNat 64 (v.toNat % 2 ^ 11) ∧
    extmValue (insmValue x v) = BitVec.ofNat 64 (v.toNat % 2 ^ 52) ∧
    (exteValue (inssValue x v) = exteValue x ∧ extmValue (inssValue x v) = extmValue x) ∧
    (extsValue (inseValue x v) = extsValue x ∧ extmValue (inseValue x v) = extmValue x) ∧
    (extsValue (insmValue x v) = extsValue x ∧ exteValue (insmValue x v) = exteValue x)

/-- R128, an inference the spec marks as its own: REST's result is normal with exponent in 0x200..0x5FF, and positive
on SQRT's path for positive x. -/
def Obligations.InitialGuessRange : Prop :=
  (∀ a : Word, 0x200 ≤ expNat (restValue a) ∧ expNat (restValue a) ≤ 0x5FF) ∧
  (∀ x : Word, isNan x = false → signNat x = 0 → signNat (restValue (rseedValue x)) = 0)

/-- RoundTo to either format is to nearest with ties to the even mantissa: no finite value is nearer than the result,
and a different value equally near means the result's mantissa is even. The sign of the result is that of q, or zs for
q = 0, a result that rounds to zero included. -/
def Obligations.RoundToIsNearestEven : Prop :=
  ∀ F, F = binary64 ∨ F = binary32 → ∀ (q : Rat) (zs : Bool),
    (roundTo F q zs).sign = (if q = 0 then zs else decide (q < 0)) ∧
    (FiniteFields F (roundTo F q zs) → ∀ c, FiniteFields F c →
      |q - fieldsValue F (roundTo F q zs)| ≤ |q - fieldsValue F c| ∧
      (|q - fieldsValue F (roundTo F q zs)| = |q - fieldsValue F c| →
        fieldsValue F c ≠ fieldsValue F (roundTo F q zs) → (roundTo F q zs).frac % 2 = 0))

/-- RoundTo overflows exactly from half a unit beyond the largest finite value on, and then its result is an infinity;
otherwise its result is finite. -/
def Obligations.RoundToOverflowBound : Prop :=
  ∀ F, F = binary64 ∨ F = binary32 → ∀ (q : Rat) (zs : Bool),
    ((roundTo F q zs).exp = 2 ^ F.expBits - 1 ↔
      ((2 ^ (F.fracBits + 2) - 1 : Nat) : Rat) * pow2 (F.emax - F.fracBits - 1) ≤ |q|) ∧
    ((roundTo F q zs).exp = 2 ^ F.expBits - 1 → (roundTo F q zs).frac = 0) ∧
    ((roundTo F q zs).exp ≠ 2 ^ F.expBits - 1 → FiniteFields F (roundTo F q zs))

/-- The values of finite patterns by their fields as numbers (R80, R81), and rounding the value of a finite pattern gives
the pattern back. -/
def Obligations.RoundingAValueIsExact : Prop :=
  (∀ b : Word, Finite64 b →
    val64 b = (if signNat b = 0 then 1 else -1) *
      (if expNat b = 0 then (fracNat b : Rat) * 2 ^ (-1074 : Int)
       else ((2 ^ 52 + fracNat b : Nat) : Rat) * 2 ^ ((expNat b : Int) - 1075)) ∧
    round64 (val64 b) (sign64 b) = b) ∧
  (∀ f : Word32, Finite32 f →
    val32 f = (if signNat32 f = 0 then 1 else -1) *
      (if expNat32 f = 0 then (fracNat32 f : Rat) * 2 ^ (-149 : Int)
       else ((2 ^ 23 + fracNat32 f : Nat) : Rat) * 2 ^ ((expNat32 f : Int) - 150)) ∧
    round32 (val32 f) (sign32 f) = f)

/-- R89 and R90: narrow and widen on NaNs, infinities and finite patterns; and inferences that these rules mark as their
own: where narrow gives an infinity and where a zero, that widen is exact, and that exponent field 0 comes only from ±0. -/
def Obligations.NarrowAndWidenByOperandClass : Prop :=
  (∀ b : Word,
    (isNan b = true →
      narrow b = BitVec.ofNat 32 (signNat b * 2 ^ 31 + 0xFF * 2 ^ 23 + (fracNat b / 2 ^ 29 ||| 2 ^ 22))) ∧
    (isInf b = true → narrow b = if signNat b = 0 then 0x7F800000#32 else 0xFF800000#32) ∧
    (Finite64 b → narrow b = round32 (val64 b) (decide (signNat b = 1))) ∧
    (Finite64 b → signNat b = 0 →
      (narrow b = 0x7F800000#32 ↔ (2 ^ 128 - 2 ^ 103 : Rat) ≤ val64 b) ∧
      (narrow b = 0x00000000#32 ↔ val64 b ≤ (1 / 2 ^ 150 : Rat)))) ∧
  (∀ f : Word32,
    (isNan32 f = true →
      widen f = BitVec.ofNat 64 (signNat32 f * 2 ^ 63 + 0x7FF * 2 ^ 52 + (fracNat32 f ||| 2 ^ 22) * 2 ^ 29)) ∧
    (isInf32 f = true → widen f = if signNat32 f = 0 then 0x7FF0000000000000#64 else 0xFFF0000000000000#64) ∧
    (Finite32 f → widen f = round64 (val32 f) (decide (signNat32 f = 1)) ∧
      val64 (widen f) = val32 f ∧ isInf (widen f) = false) ∧
    (expNat (widen f) = 0 → isZero32 f = true ∧ isZero (widen f) = true))

/-- R126, an inference the spec marks as its own: SQRT of a positive non-NaN x takes the guard path exactly up to the
bound. -/
def Obligations.GuardPathBound : Prop :=
  ∀ x : Word, signNat x = 0 → isNan x = false → isZero x = false →
    ((sqrtRule x).2.sinf = true ↔ x.toNat ≤ 0x37F0000040000000)

/-- R127, an inference the spec marks as its own: SQRT of a positive non-NaN x clamps exactly from the bound on, +∞
included. -/
def Obligations.ClampPathBound : Prop :=
  ∀ x : Word, signNat x = 0 → isNan x = false → isZero x = false →
    ((sqrtRule x).2.sclamp = true ↔ 0x47EFFFFFF0000000 ≤ x.toNat)

/-- SQRT of a NaN of either sign is that NaN made quiet, with no domain error and no path flag. -/
def Obligations.SqrtOfNanIsQuiet : Prop :=
  ∀ x : Word, isNan x = true → sqrtRule x = (x ||| 0x0008000000000000#64, ⟨false, false, false⟩)

/-- R131, an inference the spec marks as its own: SQRT's result and path fields by the host's composition of FCLASS,
RSEED, REST, NR4 and NRMUL. -/
def Obligations.SqrtIsTheComposition : Prop :=
  ∀ x : Word, sqrtRule x =
    (let c := fclassValue x
     let s := rseedValue x
     if c = 0x9#64 ∨ c = 0xA#64 ∨ c = 0xB#64 then (0xFFF8000000000000#64, ⟨true, false, false⟩)
     else if c = 0x0#64 ∨ c = 0x8#64 then (x, ⟨false, false, false⟩)
     else if fclassValue s = 0x3#64 ∨ fclassValue s = 0xB#64 then (x, ⟨false, true, false⟩)
     else (nrmulValue x (nr4Value x (restValue s)), ⟨false, false, seedClamped s⟩))

/-! ### The host port -/

/-- R23 and R31: the STATUS word bit by bit. -/
def Obligations.StatusWordLayout : Prop :=
  ∀ (s : State) (k : Nat), s.statusWord.getLsbD k =
    (if k = 0 then s.inflight.isSome
     else if k = 1 then s.status.dom
     else if k = 2 then s.status.ill
     else if k = 3 then s.status.ovr
     else if k = 4 then s.status.path.dlast
     else if k = 5 then s.status.path.sinf
     else if k = 6 then s.status.path.sclamp
     else false)

/-- R43, by the strict step, whose fault R22 and R43 ask for: the in-flight destination reads as a draw, a written
register as its content; reading changes nothing else. -/
def Obligations.DataRegisterRead : Prop :=
  ∀ s u (i : RegIx), NextMove s (.read (8 * i.val) 64) u →
    strictStep s =
      (if s.inflight.bind (fun f => dest f.cmd) = some i then
         .next { u with replies := Config.freeWord s.draws :: s.replies, draws := s.draws + 1 }
       else if s.isWritten i = true then .next { u with replies := s.reg i :: s.replies }
       else .fault (.unwrittenRead i))

/-- The model's choice for R22 (log entry 2): `step` reads an unwritten register as a free value and goes on. -/
def Obligations.UnwrittenRegisterReadsAsAFreeValue : Prop :=
  ∀ s u (i : RegIx), NextMove s (.read (8 * i.val) 64) u → ¬ Written s i →
    step s = .next { u with replies := Config.freeWord s.draws :: s.replies, draws := s.draws + 1 }

/-- R44: while idle the register is set to the value and nothing else changes; while BUSY the write is refused, OVR is
set, nothing else. R163: so is a write of CMD; a STATUS write never raises Overrun, and a read raises nothing. -/
def Obligations.DataRegisterWrite : Prop :=
  (∀ s u (i : RegIx) v, NextMove s (.write (8 * i.val) 64 v) u →
    (Idle s → ∃ t, step s = .next t ∧ t.reg i = v ∧ t.isWritten i = true ∧
      (∀ r, r ≠ i → t.reg r = s.reg r ∧ t.isWritten r = s.isWritten r) ∧
      t = { u with regs := t.regs, written := t.written }) ∧
    (s.busy = true → step s = .next { u with status := { s.status with ovr := true } })) ∧
  (∀ s u v, NextMove s (.write 0x40 64 v) u → s.busy = true →
    step s = .next { u with status := { s.status with ovr := true } }) ∧
  (∀ s u t v, NextMove s (.write 0x48 64 v) u → step s = .next t → t.status.ovr = true → s.status.ovr = true) ∧
  ∀ s u t off bits, NextMove s (.read off bits) u → step s = .next t → t.status = s.status

/-- R45 and R162: BUSY first, then legality, then issue. -/
def Obligations.CommandWrite : Prop :=
  ∀ s u v, NextMove s (.write 0x40 64 v) u →
    (s.busy = true → step s = .next { u with status := { s.status with ovr := true } }) ∧
    (Idle s → legal v = false → step s = .next { u with status := { s.status with ill := true } }) ∧
    (Idle s → legal v = true → ∃ i, v = encodeValue i ∧ step s = exec i u)

/-- R46 and R47: CMD reads 0, STATUS reads its value, busy or not; neither has a side effect; bits 63:7 read 0; and while
BUSY = 1 the path fields hold what they held. -/
def Obligations.CmdAndStatusRead : Prop :=
  (∀ s u, (NextMove s (.read 0x40 64) u → step s = .next { u with replies := 0#64 :: s.replies }) ∧
    (NextMove s (.read 0x48 64) u → step s = .next { u with replies := s.statusWord :: s.replies })) ∧
  (∀ (s : State) k, 7 ≤ k → s.statusWord.getLsbD k = false) ∧
  ∀ s t, step s = .next t → t.busy = true → t.status.path = s.status.path

/-- R48: write one to clear, on bits 1, 2 and 3 alone, busy or not. -/
def Obligations.StatusWrite : Prop :=
  ∀ s u v, NextMove s (.write 0x48 64 v) u →
    ∃ t, step s = .next t ∧ t = { u with status := t.status } ∧
      ∀ k, t.statusWord.getLsbD k = (s.statusWord.getLsbD k && !((k == 1 || k == 2 || k == 3) && v.getLsbD k))

/-- R49: at the six reserved offsets a read returns a draw and a write has no effect. -/
def Obligations.ReservedOffsets : Prop :=
  ∀ s u off v, off ∈ [0x50, 0x58, 0x60, 0x68, 0x70, 0x78] →
    (NextMove s (.read off 64) u →
      step s = .next { u with replies := Config.freeWord s.draws :: s.replies, draws := s.draws + 1 }) ∧
    (NextMove s (.write off 64 v) u → step s = .next u)

/-- R41: an access is refused exactly when it is not 64 bits at a multiple of 8 below 0x80. -/
def Obligations.AccessRefusedExactlyOutside : Prop :=
  ∀ s u off bits v, NextMove s (.read off bits) u ∨ NextMove s (.write off bits v) u →
    ((∃ r, step s = .refused r) ↔ ¬ (bits = 64 ∧ off % 8 = 0 ∧ off < 0x80))

/-! ### The machine as a whole -/

/-- A step never faults, refuses only a host access of R41, and answers a next state exactly at the accesses inside. That
it does so at a read of an unwritten register and at an issue with an unwritten source is the model's choice (log entry 2):
R22, R43 and R183 make a model fault there, as `strictStep` does. -/
def Obligations.StepNeverFaults : Prop :=
  (∀ s r, step s ≠ .fault r) ∧
  (∀ s r, step s = .refused r →
    ∃ u off bits, admissible off bits = false ∧
      (NextMove s (.read off bits) u ∨ ∃ v, NextMove s (.write off bits v) u)) ∧
  ∀ s u off bits v, NextMove s (.read off bits) u ∨ NextMove s (.write off bits v) u →
    ((∃ t, step s = .next t) ↔ (bits = 64 ∧ off % 8 = 0 ∧ off < 0x80))

/-- DLAST, SINF and SCLAMP are 0 at reset, so at most one is 1; and State.reset and the state after a reset at any point
are clean-entry states of R184 with no register written. -/
def Obligations.PathFlagsAtReset : Prop :=
  (State.reset.status.path.dlast = false ∧ State.reset.status.path.sinf = false ∧
    State.reset.status.path.sclamp = false) ∧
  AtMostOnePathFlag State.reset.status.path ∧ CleanEntry [] State.reset ∧
  ∀ s u t, NextMove s .reset u → step s = .next t → CleanEntry [] t

/-- At most one of DLAST, SINF and SCLAMP is 1, kept by every step from every state. -/
def Obligations.StepKeepsAtMostOnePathFlag : Prop :=
  ∀ s t, AtMostOnePathFlag s.status.path → step s = .next t → AtMostOnePathFlag t.status.path

/-- DOM goes from 0 to 1 only at the completion of a SQRT whose latched operand is below zero, with R164's other
effects. -/
def Obligations.DomSetOnlyByNegativeSqrt : Prop :=
  ∀ s t, step s = .next t → s.status.dom = false → t.status.dom = true →
    ∃ rd rs1 a b, s.inflight = some ⟨.sqrt rd rs1, a, b⟩ ∧ ltZero a = true ∧
      t.reg rd = 0xFFF8000000000000#64 ∧ t.status.path.dlast = true ∧ t.busy = false

/-- A sticky bit goes from 1 to 0 only by a STATUS write with its bit set, or by reset. -/
def Obligations.StickyClearedOnlyByHost : Prop :=
  ∀ s t, step s = .next t → ∀ k, (k = 1 ∨ k = 2 ∨ k = 3) →
    s.statusWord.getLsbD k = true → t.statusWord.getLsbD k = false →
    ∃ u, NextMove s .reset u ∨ ∃ v : Word, v.getLsbD k = true ∧ NextMove s (.write 0x48 64 v) u

/-- By R161, R162, R163, R26 and R27: a write of CMD or of a data register while BUSY sets OVR and is otherwise dropped, and
OVR goes to 1 in no other way; ILL goes to 1 only by an illegal CMD write at an idle block. -/
def Obligations.InterfaceErrorsRaisedOnlyByWrites : Prop :=
  (∀ s u off v, off ≤ 0x40 → off % 8 = 0 → NextMove s (.write off 64 v) u → s.busy = true →
    step s = .next { u with status := { s.status with ovr := true } }) ∧
  ∀ s t, step s = .next t →
    (s.status.ill = false → t.status.ill = true →
      ∃ u v, NextMove s (.write 0x40 64 v) u ∧ Idle s ∧ legal v = false) ∧
    (s.status.ovr = false → t.status.ovr = true →
      ∃ u v off, off ≤ 0x40 ∧ NextMove s (.write off 64 v) u ∧ s.busy = true)

/-- A data register changes only by the completion of a command that names it as its destination, or by a host write of
it at an idle block. -/
def Obligations.RegisterChangesOnlyByItsWriters : Prop :=
  ∀ s t r, step s = .next t → t.reg r ≠ s.reg r →
    (∃ f, s.inflight = some f ∧ dest f.cmd = some r ∧ exec f.cmd s = .next t ∧ t.inflight = none) ∨
    (∃ u v, NextMove s (.write (8 * r.val) 64 v) u ∧ Idle s ∧ t.reg r = v)

/-- A register once written stays written until a reset. -/
def Obligations.WrittenUntilReset : Prop :=
  ∀ s t r, step s = .next t → Written s r → (¬ ∃ u, NextMove s .reset u) → Written t r

/-- While a command is in flight its record never changes; it ends only by its completion or a reset (R189). A reset
aborts it and writes no data register (R180); that it leaves the pending moves, the replies and the draw counter is the
model's choice (log entry 15). -/
def Obligations.CommandInFlightIsFixed : Prop :=
  (∀ s t f, s.inflight = some f → step s = .next t →
    t.inflight = some f ∨
    (CommandEnds s t ∧ t.inflight = none ∧ ((∃ u, NextMove s .reset u) ∨ exec f.cmd s = .next t))) ∧
  ∀ s u t, NextMove s .reset u → step s = .next t →
    t.inflight = none ∧ t.regs = s.regs ∧ t.host = u.host ∧ t.replies = s.replies ∧ t.draws = s.draws

/-- R59, an inference the spec marks as its own, for its reads and its idempotent writes. A host read changes no state of
the block and returns one value; making the same write of a data register or of STATUS twice, with no completion between,
leaves what making it once leaves. -/
def Obligations.ReadsHaveNoSideEffect : Prop :=
  (∀ s u t off bits, NextMove s (.read off bits) u → step s = .next t →
    t = { s with host := u.host, replies := t.replies, draws := t.draws } ∧ ∃ v, t.replies = v :: s.replies) ∧
  ∀ (s : State) (off : Nat) (v : Word) (l₁ l₂ : Bool) (rest : List Pending),
    ((∃ i : RegIx, off = 8 * i.val) ∨ off = 0x48) → (s.busy = true → l₁ = false ∧ l₂ = false) →
    ∃ t, step { s with host := ⟨.write off 64 v, l₁⟩ :: rest } = .next t ∧
      Host.Core.run core 2 { s with host := ⟨.write off 64 v, l₁⟩ :: ⟨.write off 64 v, l₂⟩ :: rest } = .next t

/-- R56's race: a W1C write of DOM against the completion of a SQRT of a negative operand. -/
def Obligations.RaceOnDomHasBothOutcomes : Prop :=
  ∀ (s : State) rd rs1 a b (v : Word), s.inflight = some ⟨.sqrt rd rs1, a, b⟩ → ltZero a = true → v.getLsbD 1 = true →
    ∃ t₁ t₂, Host.Core.run core 2 { s with host := [⟨.write 0x48 64 v, false⟩] } = .next t₁ ∧ t₁.status.dom = true ∧
      Host.Core.run core 2 { s with host := [⟨.write 0x48 64 v, true⟩] } = .next t₂ ∧ t₂.status.dom = false

/-- Program P5's race in general: a data register written while a command is in flight, in either order. The result of
the command is the same, and exactly one of the two writes is refused. -/
def Obligations.BusyWriteRaceHasTwoOutcomes : Prop :=
  ∀ (s : State) f rd (i : RegIx) (v : Word), s.inflight = some f → dest f.cmd = some rd → rd ≠ i →
    ∃ t₁ t₂, Host.Core.run core 2 { s with host := [⟨.write (8 * i.val) 64 v, false⟩] } = .next t₁ ∧
      Host.Core.run core 2 { s with host := [⟨.write (8 * i.val) 64 v, true⟩] } = .next t₂ ∧
      t₁.reg rd = t₂.reg rd ∧ t₁.busy = false ∧ t₂.busy = false ∧
      t₁.reg i = s.reg i ∧ t₁.status.ovr = true ∧ t₂.reg i = v ∧ t₂.status.ovr = s.status.ovr

/-- A command in flight completes: whatever accesses the host has pending, after at most that many steps the next step
is its completion. And a run of moves that are all in R190's table ends (R189). That a pending read of an unwritten
register does not stop either is the model's choice (log entry 2), as is how weak fairness is held (log entry 5). -/
def Obligations.CommandInFlightCompletes : Prop :=
  (∀ s f, s.inflight = some f → AccessesOnly s →
    ∃ k t t', k ≤ s.host.length ∧ Host.Core.run core k s = .next t ∧ t.inflight = some f ∧
      step t = exec f.cmd t ∧ exec f.cmd t = .next t' ∧ t'.busy = false) ∧
  ∀ s, Served s → ∃ k t, k ≤ 2 * s.host.length + 1 ∧ Host.Core.run core k s = .next t ∧ RunEnded t

/-- Where the strict step goes on, it does what `step` does, and the only free values it draws are those of R43 and R49:
a read of the in-flight destination or of a reserved offset. -/
def Obligations.StrictStepDrawsOnlyOpenReads : Prop :=
  ∀ s t, strictStep s = .next t → step s = .next t ∧
    (t.draws ≠ s.draws → ∃ u off, NextMove s (.read off 64) u ∧
      (0x50 ≤ off ∨ (off < 0x40 ∧ s.inflight.bind (fun f => dest f.cmd) = some (regAt off))))
end

