-- ==== Sys2Proof/Laws/Bits.lean ====
section
/-! SUPPORT. Fields of bit vectors as numbers: concatenation and extraction, the fields of a binary64 pattern, and the
fields of a command word (spec/30_encoding.md R61, spec/40_fp_primitives.md R80). -/

namespace Sys2Proof

open Sys2Proof.Machine

/-! ### Any width -/

theorem toNat_append_eq {m n : Nat} (x : BitVec m) (y : BitVec n) : (x ++ y).toNat = x.toNat * 2 ^ n + y.toNat := by
  rw [BitVec.toNat_append, ← Nat.shiftLeft_add_eq_or_of_lt y.isLt, Nat.shiftLeft_eq]

theorem toNat_extract_eq {w : Nat} (start n : Nat) (x : BitVec w) :
    (x.extractLsb' start n).toNat = x.toNat / 2 ^ start % 2 ^ n := by
  rw [BitVec.extractLsb'_toNat, Nat.shiftRight_eq_div_pow]

theorem beq_ofNat_eq {n : Nat} (x : BitVec n) {k : Nat} (h : k < 2 ^ n) :
    (x == BitVec.ofNat n k) = decide (x.toNat = k) := by
  rw [Bool.eq_iff_iff]; simp [BitVec.toNat_eq, Nat.mod_eq_of_lt h]

/-- A field that lies under the ones of a mask is the pattern's field. -/
theorem extract_of_mask {w m p : Word32} (h : w &&& m = p) (start n : Nat)
    (hm : m.extractLsb' start n = BitVec.allOnes n) : w.extractLsb' start n = p.extractLsb' start n := by
  have := congrArg (BitVec.extractLsb' start n) h
  rwa [BitVec.extractLsb'_and, hm, BitVec.and_allOnes] at this

/-! ### The fields of a pattern -/

theorem signNat_eq_zero_or_one (b : Word) : signNat b = 0 ∨ signNat b = 1 := by
  have := b.isLt
  simp only [signNat]
  omega

theorem sign64_eq (b : Word) : sign64 b = decide (signNat b = 1) := by
  have := b.isLt
  rw [sign64, BitVec.getLsbD, Nat.testBit_eq_decide_div_mod_eq, decide_eq_decide]
  simp only [signNat]
  omega

theorem exp64_toNat (b : Word) : (exp64 b).toNat = expNat b := by simp only [exp64, toNat_extract_eq, expNat]

theorem frac64_toNat (b : Word) : (frac64 b).toNat = fracNat b := by
  simp only [frac64, toNat_extract_eq, fracNat]; simp

/-- A pattern is its three fields. -/
theorem toNat_eq_fields (b : Word) : b.toNat = signNat b * 2 ^ 63 + expNat b * 2 ^ 52 + fracNat b := by
  have := b.isLt
  simp only [signNat, expNat, fracNat]
  omega

theorem toNat_join64 (s : Bool) (e : BitVec 11) (m : BitVec 52) :
    (join64 s e m).toNat = s.toNat * 2 ^ 63 + e.toNat * 2 ^ 52 + m.toNat := by
  simp only [join64, toNat_append_eq, BitVec.toNat_ofBool]
  omega

/-! ### The fields of a command word -/

/-- A value with a clear upper half is its lower half, extended. -/
theorem eq_setWidth_of_upper_zero (v : Word) (h : v.extractLsb' 32 32 = 0#32) :
    v = (v.extractLsb' 0 32).setWidth 64 := by
  have h := congrArg BitVec.toNat h
  apply BitVec.eq_of_toNat_eq
  simp [BitVec.toNat_setWidth] at *
  omega

/-- A command word with clear reserved bits is its four fields. -/
theorem eq_commandWord_of_reservedClear (w : Word32) (h : reservedClear w = true) :
    w = commandWord (fieldOpc w) (fieldRd w) (fieldRs1 w) (fieldRs2 w) := by
  simp only [reservedClear, Bool.and_eq_true, beq_iff_eq] at h
  obtain ⟨⟨⟨h1, h2⟩, h3⟩, h4⟩ := h
  have e : ∀ b : BitVec 3, bitsOfReg (regOfBits b) = b := by decide
  have h1 := congrArg BitVec.toNat h1
  have h2 := congrArg BitVec.toNat h2
  have h3 := congrArg BitVec.toNat h3
  have h4 := congrArg BitVec.toNat h4
  apply BitVec.eq_of_toNat_eq
  simp only [commandWord, fieldOpc, fieldRd, fieldRs1, fieldRs2, e, toNat_append_eq, toNat_extract_eq] at *
  simp at *
  have := w.isLt
  omega

end Sys2Proof
end

