-- ==== Sys2Proof/Laws/Float.lean ====
section
/-! SUPPORT. RoundTo on exact rationals, part by part: powers of two, floor of the logarithm, nearest integer, the
exponent and significand, the assembled fields, and the grid of finite values (spec/40_fp_primitives.md R83). -/

namespace Sys2Proof.Machine

theorem pow2_eq_zpow (k : Int) : pow2 k = (2 : Rat) ^ k := by
  unfold pow2
  split_ifs with h
  · obtain ⟨n, rfl⟩ := Int.eq_ofNat_of_zero_le h
    simp
  · obtain ⟨n, hn⟩ := Int.eq_ofNat_of_zero_le (show 0 ≤ -k by omega)
    rw [hn, show k = -(n : Int) by omega]
    simp [zpow_neg]

theorem pow2_pos (k : Int) : 0 < pow2 k := by rw [pow2_eq_zpow]; positivity

theorem pow2_add (j k : Int) : pow2 (j + k) = pow2 j * pow2 k := by
  simp only [pow2_eq_zpow]; exact zpow_add₀ (by norm_num) j k

theorem pow2_le_pow2 {j k : Int} : pow2 j ≤ pow2 k ↔ j ≤ k := by
  simp only [pow2_eq_zpow]; exact zpow_le_zpow_iff_right₀ (by norm_num)

theorem pow2_lt_pow2 {j k : Int} : pow2 j < pow2 k ↔ j < k := by
  simp only [pow2_eq_zpow]; exact zpow_lt_zpow_iff_right₀ (by norm_num)

theorem pow2_natCast (n : Nat) : pow2 n = ((2 ^ n : Nat) : Rat) := by
  rw [pow2_eq_zpow]; simp

/-- The floor of the logarithm. -/
theorem floorLog2_spec {a : Rat} (ha : 0 < a) : pow2 (floorLog2 a) ≤ a ∧ a < pow2 (floorLog2 a + 1) := by
  have hn : 0 < a.num := Rat.num_pos.2 ha
  have hn0 : a.num.natAbs ≠ 0 := by omega
  have hd0 : a.den ≠ 0 := a.den_nz
  have hnum : a = (a.num.natAbs : Rat) / (a.den : Rat) := by
    conv_lhs => rw [← Rat.num_div_den a]
    congr 1
    rw [Nat.cast_natAbs, abs_of_pos hn]
  have n1 : ((2 ^ Nat.log2 a.num.natAbs : Nat) : Rat) ≤ a.num.natAbs := by exact_mod_cast Nat.log2_self_le hn0
  have n2 : (a.num.natAbs : Rat) < ((2 ^ (Nat.log2 a.num.natAbs + 1) : Nat) : Rat) := by exact_mod_cast Nat.lt_log2_self
  have d1 : ((2 ^ Nat.log2 a.den : Nat) : Rat) ≤ a.den := by exact_mod_cast Nat.log2_self_le hd0
  have d2 : (a.den : Rat) < ((2 ^ (Nat.log2 a.den + 1) : Nat) : Rat) := by exact_mod_cast Nat.lt_log2_self
  rw [← pow2_natCast] at n1 n2 d1 d2
  have hdp : (0 : Rat) < a.den := by exact_mod_cast a.den_pos
  have up : a < pow2 ((Nat.log2 a.num.natAbs : Int) - Nat.log2 a.den + 1) := by
    conv_lhs => rw [hnum]
    rw [div_lt_iff₀ hdp]
    refine lt_of_lt_of_le n2 ?_
    refine le_trans ?_ (mul_le_mul_of_nonneg_left d1 (pow2_pos _).le)
    rw [← pow2_add, pow2_le_pow2]; push_cast; omega
  have lo : pow2 ((Nat.log2 a.num.natAbs : Int) - Nat.log2 a.den - 1) ≤ a := by
    conv_rhs => rw [hnum]
    rw [le_div_iff₀ hdp]
    refine le_trans ?_ n1
    refine le_trans (mul_le_mul_of_nonneg_left d2.le (pow2_pos _).le) ?_
    rw [← pow2_add, pow2_le_pow2]; push_cast; omega
  unfold floorLog2
  simp only []
  split_ifs with h
  · exact ⟨h, up⟩
  · exact ⟨lo, by rw [sub_add_cancel]; exact not_le.1 h⟩

/-- The nearest integer. -/
theorem nearestEven_spec {n : Rat} (hn : 0 ≤ n) :
    |n - nearestEven n| ≤ 1 / 2 ∧ (|n - nearestEven n| = 1 / 2 → nearestEven n % 2 = 0) := by
  have hden : (0 : Rat) < n.den := by exact_mod_cast n.den_pos
  have hnum : n = (n.num.natAbs : Rat) / n.den := by
    conv_lhs => rw [← Rat.num_div_den n]
    congr 1
    rw [Nat.cast_natAbs, abs_of_nonneg (Rat.num_nonneg.2 hn)]
  have hdm : (n.num.natAbs : Rat) = n.den * (n.num.natAbs / n.den : Nat) + (n.num.natAbs % n.den : Nat) := by
    exact_mod_cast (Nat.div_add_mod n.num.natAbs n.den).symm
  have hlt : n.num.natAbs % n.den < n.den := Nat.mod_lt _ n.den_pos
  have key : n = (n.num.natAbs / n.den : Nat) + (n.num.natAbs % n.den : Nat) / (n.den : Rat) := by
    conv_lhs => rw [hnum, hdm]
    field_simp
  unfold nearestEven
  simp only []
  generalize n.num.natAbs / n.den = k at *
  generalize n.num.natAbs % n.den = r at *
  generalize n.den = d at *
  have hrd : (0:Rat) ≤ r / d := by positivity
  split_ifs with h
  · have h2 : (d : Rat) ≤ 2 * r := by rcases h with h | h; exact_mod_cast h.le; exact_mod_cast h.1.ge
    have h1 : (r : Rat) / d < 1 := by rw [div_lt_one hden]; exact_mod_cast hlt
    have h3 : (1 / 2 : Rat) ≤ r / d := by rw [div_le_div_iff₀ (by norm_num) hden]; linarith
    have e : n - ((k + 1 : Nat) : Rat) = r / d - 1 := by push_cast; linarith [key]
    rw [e, abs_of_neg (by linarith)]
    refine ⟨by linarith, fun ht => ?_⟩
    have : (2 * r : Rat) = d := by
      have : (r : Rat) / d = 1/2 := by linarith
      rw [div_eq_iff hden.ne'] at this; linarith
    have : 2 * r = d := by exact_mod_cast this
    omega
  · rw [not_or, not_lt, not_and_or] at h
    have h2 : (2 * r : Rat) ≤ d := by exact_mod_cast h.1
    have h3 : (r : Rat) / d ≤ 1 / 2 := by rw [div_le_div_iff₀ hden (by norm_num)]; linarith
    have e : n - ((k : Nat) : Rat) = r / d := by linarith [key]
    rw [e, abs_of_nonneg hrd]
    refine ⟨h3, fun ht => ?_⟩
    have : (2 * r : Rat) = d := by
      rw [div_eq_iff hden.ne'] at ht; linarith
    have : 2 * r = d := by exact_mod_cast this
    omega

/-- An integer is its own nearest. -/
theorem nearestEven_natCast (m : Nat) : nearestEven (m : Rat) = m := by
  have h := (nearestEven_spec (n := (m : Rat)) (by positivity)).1
  have : |((m : Int) : Rat) - ((nearestEven (m : Rat) : Int) : Rat)| < 1 := by push_cast; linarith
  rw [← Int.cast_sub, ← Int.cast_abs] at this
  have : |(m : Int) - (nearestEven (m : Rat) : Int)| < 1 := by exact_mod_cast this
  have := Int.abs_lt_one_iff.1 this
  omega

theorem le_nearestEven {m : Nat} {n : Rat} (h : (m : Rat) ≤ n) : m ≤ nearestEven n := by
  have hn : 0 ≤ n := le_trans (by positivity) h
  have h1 := (abs_le.1 (nearestEven_spec hn).1).2
  have : (m : Rat) < ((nearestEven n + 1 : Nat) : Rat) := by push_cast; linarith
  have : m < nearestEven n + 1 := by exact_mod_cast this
  omega

theorem nearestEven_le {m : Nat} {n : Rat} (hn : 0 ≤ n) (h : n ≤ m) : nearestEven n ≤ m := by
  have h1 := (abs_le.1 (nearestEven_spec hn).1).1
  have : (nearestEven n : Rat) < ((m + 1 : Nat) : Rat) := by push_cast; linarith
  have : nearestEven n < m + 1 := by exact_mod_cast this
  omega

/-- The relations among a format's parameters that RoundTo relies on. -/
structure Format.Interchange (F : Format) : Prop where
  emin_bias : F.emin + F.bias = 1
  emax_bias : F.emax + F.bias = 2 ^ F.expBits - 2
  emin_le : F.emin ≤ F.emax

theorem binary64_interchange : binary64.Interchange := ⟨by decide, by decide, by decide⟩
theorem binary32_interchange : binary32.Interchange := ⟨by decide, by decide, by decide⟩

/-- The exponent and the significand of a positive rational: where they lie, and how near the rounded value is. -/
theorem significand_spec (F : Format) {a : Rat} (ha : 0 < a) :
    F.emin ≤ roundExp F a ∧ a < pow2 (roundExp F a + 1) ∧ roundSig F a ≤ 2 ^ (F.fracBits + 1) ∧
      (F.emin < roundExp F a → pow2 (roundExp F a) ≤ a ∧ 2 ^ F.fracBits ≤ roundSig F a) ∧
      |a - roundSig F a * pow2 (roundExp F a - F.fracBits)| ≤ pow2 (roundExp F a - F.fracBits) / 2 ∧
      (|a - roundSig F a * pow2 (roundExp F a - F.fracBits)| = pow2 (roundExp F a - F.fracBits) / 2 →
        roundSig F a % 2 = 0) := by
  obtain ⟨lo, up⟩ := floorLog2_spec ha
  have hk : roundSig F a = nearestEven (a * pow2 (F.fracBits - roundExp F a)) := rfl
  have he : roundExp F a = max (floorLog2 a) F.emin := rfl
  generalize roundExp F a = e at *
  generalize roundSig F a = k at *
  have up' : a < pow2 (e + 1) := lt_of_lt_of_le up (pow2_le_pow2.2 (by omega))
  have hs : 0 < pow2 (F.fracBits - e) := pow2_pos _
  have hu : 0 < pow2 (e - F.fracBits) := pow2_pos _
  have hsu : pow2 (F.fracBits - e) * pow2 (e - F.fracBits) = 1 := by
    rw [← pow2_add, show (F.fracBits : Int) - e + (e - F.fracBits) = ((0 : Nat) : Int) by simp, pow2_natCast]; simp
  have hn : 0 ≤ a * pow2 (F.fracBits - e) := by positivity
  obtain ⟨h1, h2⟩ := nearestEven_spec hn
  have hd : a - k * pow2 (e - F.fracBits) = (a * pow2 (F.fracBits - e) - k) * pow2 (e - F.fracBits) := by
    rw [sub_mul, mul_assoc, hsu, mul_one]
  rw [← hk] at h1 h2
  refine ⟨by omega, up', ?_, ?_, ?_, ?_⟩
  · rw [hk]
    apply nearestEven_le hn
    rw [← pow2_natCast]
    calc a * pow2 (F.fracBits - e) ≤ pow2 (e + 1) * pow2 (F.fracBits - e) := mul_le_mul_of_nonneg_right up'.le hs.le
      _ = pow2 ((F.fracBits + 1 : Nat) : Int) := by rw [← pow2_add]; congr 1; push_cast; ring
  · intro h
    have hl : pow2 e ≤ a := by rwa [show e = floorLog2 a by omega]
    refine ⟨hl, hk ▸ le_nearestEven ?_⟩
    rw [← pow2_natCast]
    calc pow2 ((F.fracBits : Nat) : Int) = pow2 e * pow2 (F.fracBits - e) := by rw [← pow2_add]; congr 1; ring
      _ ≤ a * pow2 (F.fracBits - e) := mul_le_mul_of_nonneg_right hl hs.le
  · rw [hd, abs_mul, abs_of_pos hu]
    calc _ ≤ 1 / 2 * pow2 (e - F.fracBits) := mul_le_mul_of_nonneg_right h1 hu.le
      _ = _ := by ring
  · rw [hd, abs_mul, abs_of_pos hu]
    intro h
    apply h2
    have : |a * pow2 (F.fracBits - e) - k| * pow2 (e - F.fracBits) = 1 / 2 * pow2 (e - F.fracBits) := by rw [h]; ring
    exact mul_right_cancel₀ hu.ne' this

/-- RoundTo overflows for this exponent and significand (R83). -/
def Overflows (F : Format) (e : Int) (k : Nat) : Prop := F.emax < e ∨ (e = F.emax ∧ k = 2 ^ (F.fracBits + 1))

theorem assemble_overflow {F : Format} (s : Bool) {e : Int} {k : Nat} (h : Overflows F e k) :
    assemble F s e k = ⟨s, 2 ^ F.expBits - 1, 0⟩ := by
  unfold assemble
  rcases h with h | ⟨h, hk⟩
  · split_ifs <;> first | rfl | omega
  · rw [if_pos hk, if_pos (by omega)]

/-- Without overflow the fields are finite, keep the sign and hold k·2^(e-MB); an even k gives an even mantissa. -/
theorem assemble_finite {F : Format} (hF : F.Interchange) (s : Bool) {e : Int} {k : Nat} (h : ¬ Overflows F e k)
    (he : F.emin ≤ e) (hk : k ≤ 2 ^ (F.fracBits + 1)) (hn : F.emin < e → 2 ^ F.fracBits ≤ k)
    (hm : F.fracBits ≠ 0) :
    (assemble F s e k).sign = s ∧ FiniteFields F (assemble F s e k) ∧
      fieldsValue F (assemble F s e k) = (if s then -1 else 1) * (k * pow2 (e - F.fracBits)) ∧
      (k % 2 = 0 → (assemble F s e k).frac % 2 = 0) := by
  simp only [Overflows, not_or, not_lt, not_and] at h
  have h1 := hF.emin_bias
  have h2 := hF.emax_bias
  have hp2 : ((2 ^ F.expBits : Nat) : Int) = 2 ^ F.expBits := by push_cast; rfl
  have hpow : (2 : Nat) ^ (F.fracBits + 1) = 2 * 2 ^ F.fracBits := by ring
  have hpp : 0 < 2 ^ F.fracBits := Nat.two_pow_pos _
  have hs : ∀ x : Rat, (if s = true then -x else x) = (if s = true then -1 else 1) * x := by
    intro x; cases s <;> simp
  by_cases hc : k = 2 ^ (F.fracBits + 1)
  · have h' : e ≠ F.emax := fun h' => h.2 h' hc
    have ea : assemble F s e k = ⟨s, (e + 1 + F.bias).toNat, 0⟩ := by
      unfold assemble
      rw [if_pos hc, if_neg (show ¬ F.emax < e + 1 by omega)]
    rw [ea]
    refine ⟨rfl, ⟨?_, hpp⟩, ?_, fun _ => rfl⟩
    · show (e + 1 + F.bias).toNat < 2 ^ F.expBits - 1
      omega
    · simp only [fieldsValue, finiteValue]
      have he0 : (e + 1 + F.bias).toNat ≠ 0 := by omega
      have hex : ((e + 1 + F.bias).toNat : Int) - F.bias - F.fracBits = 1 + (e - F.fracBits) := by omega
      rw [if_neg he0, hs, hex, pow2_add, hc, hpow, show pow2 1 = 2 by rw [pow2_eq_zpow]; norm_num]
      push_cast
      ring
  · by_cases hl : k < 2 ^ F.fracBits
    · have h' : e = F.emin := by
        by_contra hne
        exact absurd (hn (by omega)) (by omega)
      have ea : assemble F s e k = ⟨s, 0, k⟩ := by
        unfold assemble
        rw [if_neg hc, if_neg (show ¬ F.emax < e by omega), if_pos hl]
      rw [ea]
      refine ⟨rfl, ⟨?_, hl⟩, ?_, id⟩
      · show 0 < 2 ^ F.expBits - 1
        omega
      · simp only [fieldsValue, finiteValue, if_true]
        rw [hs, h']
    · have ea : assemble F s e k = ⟨s, (e + F.bias).toNat, k - 2 ^ F.fracBits⟩ := by
        unfold assemble
        rw [if_neg hc, if_neg (show ¬ F.emax < e by omega), if_neg hl]
      rw [ea]
      refine ⟨rfl, ⟨?_, ?_⟩, ?_, ?_⟩
      · show (e + F.bias).toNat < 2 ^ F.expBits - 1
        omega
      · show k - 2 ^ F.fracBits < 2 ^ F.fracBits
        omega
      · simp only [fieldsValue, finiteValue]
        have he0 : (e + F.bias).toNat ≠ 0 := by omega
        have hex : ((e + F.bias).toNat : Int) - F.bias - F.fracBits = e - F.fracBits := by omega
        have hkk : 2 ^ F.fracBits + (k - 2 ^ F.fracBits) = k := by omega
        rw [if_neg he0, hs, hex, hkk]
      · intro h
        show (k - 2 ^ F.fracBits) % 2 = 0
        have : 2 ^ F.fracBits % 2 = 0 := by
          obtain ⟨n, hn⟩ := Nat.exists_eq_succ_of_ne_zero hm
          rw [hn, pow_succ]; omega
        omega

/-- RoundTo of a nonzero rational, by the exponent and significand of its magnitude. -/
theorem roundTo_of_ne_zero (F : Format) {q : Rat} (hq : q ≠ 0) (zs : Bool) :
    roundTo F q zs = assemble F (decide (q < 0)) (roundExp F |q|) (roundSig F |q|) := by
  unfold roundTo
  rw [if_neg hq]
  split_ifs with h
  · simp [h, abs_of_neg h]
  · simp [h, abs_of_nonneg (not_lt.1 h)]

/-- The rounded fields of a rational that does not overflow: finite, and the value of the significand. -/
theorem roundTo_finite {F : Format} (hF : F.Interchange) (hm : F.fracBits ≠ 0) {q : Rat} (hq : q ≠ 0) (zs : Bool)
    (h : ¬ Overflows F (roundExp F |q|) (roundSig F |q|)) :
    (roundTo F q zs).sign = decide (q < 0) ∧ FiniteFields F (roundTo F q zs) ∧
      fieldsValue F (roundTo F q zs) =
        (if q < 0 then -1 else 1) * (roundSig F |q| * pow2 (roundExp F |q| - F.fracBits)) ∧
      (roundSig F |q| % 2 = 0 → (roundTo F q zs).frac % 2 = 0) := by
  obtain ⟨h1, _, h3, h4, _⟩ := significand_spec F (abs_pos.2 hq)
  rw [roundTo_of_ne_zero F hq]
  simpa using assemble_finite hF (decide (q < 0)) h h1 h3 (fun h => (h4 h).2) hm

/-- The value of finite fields is a signed integer of at most MB+1 bits times a power of two no smaller than the
subnormal unit. -/
theorem fieldsValue_grid {F : Format} (hF : F.Interchange) {f : Fields} (hf : FiniteFields F f) :
    ∃ (j : Nat) (E : Int), F.emin ≤ E ∧ E ≤ F.emax ∧ j < 2 ^ (F.fracBits + 1) ∧
      fieldsValue F f = (if f.sign then -1 else 1) * (j * pow2 (E - F.fracBits)) := by
  have h1 := hF.emin_bias
  have h2 := hF.emax_bias
  have h3 := hF.emin_le
  have hp2 : ((2 ^ F.expBits : Nat) : Int) = 2 ^ F.expBits := by push_cast; rfl
  have hpow : (2 : Nat) ^ (F.fracBits + 1) = 2 * 2 ^ F.fracBits := by ring
  have hs : ∀ x : Rat, (if f.sign = true then -x else x) = (if f.sign = true then -1 else 1) * x := by
    intro x; cases f.sign <;> simp
  obtain ⟨hfe, hff⟩ := hf
  by_cases he : f.exp = 0
  · refine ⟨f.frac, F.emin, le_rfl, h3, by omega, ?_⟩
    simp only [fieldsValue, finiteValue]
    rw [if_pos he, hs]
  · refine ⟨2 ^ F.fracBits + f.frac, f.exp - F.bias, by omega, by omega, by omega, ?_⟩
    simp only [fieldsValue, finiteValue]
    rw [if_neg he, hs]

/-- A number on that grid has itself as its significand: rounding loses nothing. -/
theorem significand_exact (F : Format) {a : Rat} (ha : 0 < a) {j : Nat} {E : Int} (hE : F.emin ≤ E)
    (hj : j < 2 ^ (F.fracBits + 1)) (h : a = j * pow2 (E - F.fracBits)) :
    roundSig F a * pow2 (roundExp F a - F.fracBits) = a ∧ roundSig F a < 2 ^ (F.fracBits + 1) ∧ roundExp F a ≤ E := by
  obtain ⟨_, up, _, lo, _⟩ := significand_spec F ha
  have hk : roundSig F a = nearestEven (a * pow2 (F.fracBits - roundExp F a)) := rfl
  have he : F.emin ≤ roundExp F a := le_max_right _ _
  generalize roundSig F a = k at *
  generalize roundExp F a = e at *
  have hjR : (j : Rat) < pow2 ((F.fracBits + 1 : Nat) : Int) := by rw [pow2_natCast]; exact_mod_cast hj
  have haE : a < pow2 (E + 1) := by
    rw [h, show E + 1 = ((F.fracBits + 1 : Nat) : Int) + (E - F.fracBits) by push_cast; ring, pow2_add]
    exact mul_lt_mul_of_pos_right hjR (pow2_pos _)
  have heE : e ≤ E := by
    by_contra hlt
    have := (lo (by omega)).1
    have := lt_of_le_of_lt this haE
    rw [pow2_lt_pow2] at this
    omega
  obtain ⟨d, hd⟩ := Int.eq_ofNat_of_zero_le (show 0 ≤ E - e by omega)
  have hn : a * pow2 (F.fracBits - e) = ((j * 2 ^ d : Nat) : Rat) := by
    rw [h, mul_assoc, ← pow2_add, show E - F.fracBits + (F.fracBits - e) = (d : Int) by omega, pow2_natCast]
    push_cast; ring
  rw [hn, nearestEven_natCast] at hk
  have hval : (k : Rat) * pow2 (e - F.fracBits) = a := by
    rw [hk, ← hn, mul_assoc, ← pow2_add, show (F.fracBits : Int) - e + (e - F.fracBits) = ((0 : Nat) : Int) by simp,
      pow2_natCast]
    simp
  refine ⟨hval, ?_, heE⟩
  have : (k : Rat) * pow2 (e - F.fracBits) < pow2 ((F.fracBits + 1 : Nat) : Int) * pow2 (e - F.fracBits) := by
    rw [hval, ← pow2_add]
    exact lt_of_lt_of_eq up (by congr 1; push_cast; ring)
  have := lt_of_mul_lt_mul_right this (pow2_pos _).le
  rw [pow2_natCast] at this
  exact_mod_cast this

/-- A number on the grid of finite values rounds to itself. -/
theorem roundTo_exact {F : Format} (hF : F.Interchange) (hm : F.fracBits ≠ 0) {q : Rat} (hq : q ≠ 0) (zs : Bool)
    {j : Nat} {E : Int} (hE : F.emin ≤ E) (hE' : E ≤ F.emax) (hj : j < 2 ^ (F.fracBits + 1))
    (h : |q| = j * pow2 (E - F.fracBits)) :
    (roundTo F q zs).sign = decide (q < 0) ∧ FiniteFields F (roundTo F q zs) ∧
      fieldsValue F (roundTo F q zs) = q := by
  obtain ⟨e1, e2, e3⟩ := significand_exact F (abs_pos.2 hq) hE hj h
  obtain ⟨r1, r2, r3, -⟩ := roundTo_finite hF hm hq zs (by rintro (h | h) <;> omega)
  refine ⟨r1, r2, ?_⟩
  rw [r3, e1]
  split_ifs with hn
  · rw [abs_of_neg hn]; ring
  · rw [abs_of_nonneg (not_lt.1 hn)]; ring

end Sys2Proof.Machine
end

