-- ==== Sys2Proof/Laws/State.lean ====
section
/-! SUPPORT. The small lemmas of the state's named updates: one per field and update, and what a data register and its
written bit read as after a write. -/

namespace Sys2Proof.Machine

variable (s : State) (r q : RegIx) (v : Word) (e : ErrorCondition)

/-! ### Writing a data register -/

@[simp] theorem writeReg_status : (s.writeReg r v).status = s.status := rfl
@[simp] theorem writeReg_inflight : (s.writeReg r v).inflight = s.inflight := rfl
@[simp] theorem writeReg_host : (s.writeReg r v).host = s.host := rfl
@[simp] theorem writeReg_replies : (s.writeReg r v).replies = s.replies := rfl
@[simp] theorem writeReg_draws : (s.writeReg r v).draws = s.draws := rfl
@[simp] theorem writeReg_busy : (s.writeReg r v).busy = s.busy := rfl

theorem reg_writeReg : (s.writeReg r v).reg q = if q = r then v else s.reg q := by
  simp only [State.reg, State.writeReg, Vector.getElem_set, Fin.ext_iff, eq_comm]

@[simp] theorem reg_writeReg_same : (s.writeReg r v).reg r = v := by simp [reg_writeReg]

theorem isWritten_writeReg : (s.writeReg r v).isWritten q = if q = r then true else s.isWritten q := by
  simp only [State.isWritten, State.writeReg, Vector.getElem_set, Fin.ext_iff, eq_comm]

@[simp] theorem isWritten_writeReg_same : (s.writeReg r v).isWritten r = true := by simp [isWritten_writeReg]

/-- Two register files with the same reads are the same. -/
theorem regs_ext {a b : Vector Word 8} (h : ∀ i : RegIx, a[i.val] = b[i.val]) : a = b :=
  Vector.ext fun i hi => h ⟨i, hi⟩

/-! ### Drawing a free value -/

@[simp] theorem draw_value : s.draw.1 = Config.freeWord s.draws := rfl
@[simp] theorem draw_regs : s.draw.2.regs = s.regs := rfl
@[simp] theorem draw_written : s.draw.2.written = s.written := rfl
@[simp] theorem draw_status : s.draw.2.status = s.status := rfl
@[simp] theorem draw_inflight : s.draw.2.inflight = s.inflight := rfl
@[simp] theorem draw_host : s.draw.2.host = s.host := rfl
@[simp] theorem draw_replies : s.draw.2.replies = s.replies := rfl
@[simp] theorem draw_draws : s.draw.2.draws = s.draws + 1 := rfl

/-! ### Recording an error -/

@[simp] theorem raise_regs : (s.raise e).regs = s.regs := rfl
@[simp] theorem raise_written : (s.raise e).written = s.written := rfl
@[simp] theorem raise_status : (s.raise e).status = s.status.raise e := rfl
@[simp] theorem raise_inflight : (s.raise e).inflight = s.inflight := rfl
@[simp] theorem raise_host : (s.raise e).host = s.host := rfl
@[simp] theorem raise_replies : (s.raise e).replies = s.replies := rfl
@[simp] theorem raise_draws : (s.raise e).draws = s.draws := rfl

/-! ### A reply to the host -/

@[simp] theorem reply_regs : (s.reply v).regs = s.regs := rfl
@[simp] theorem reply_written : (s.reply v).written = s.written := rfl
@[simp] theorem reply_status : (s.reply v).status = s.status := rfl
@[simp] theorem reply_inflight : (s.reply v).inflight = s.inflight := rfl
@[simp] theorem reply_host : (s.reply v).host = s.host := rfl
@[simp] theorem reply_replies : (s.reply v).replies = v :: s.replies := rfl
@[simp] theorem reply_draws : (s.reply v).draws = s.draws := rfl

/-! ### Reset of the block -/

@[simp] theorem resetBlock_regs : s.resetBlock.regs = s.regs := rfl
@[simp] theorem resetBlock_written : s.resetBlock.written = .replicate 8 false := rfl
@[simp] theorem resetBlock_status : s.resetBlock.status = .clear := rfl
@[simp] theorem resetBlock_inflight : s.resetBlock.inflight = none := rfl
@[simp] theorem resetBlock_host : s.resetBlock.host = s.host := rfl
@[simp] theorem resetBlock_replies : s.resetBlock.replies = s.replies := rfl
@[simp] theorem resetBlock_draws : s.resetBlock.draws = s.draws := rfl

/-! ### STATUS -/

@[simp] theorem clearOnes_path (st : Status) : (st.clearOnes v).path = st.path := rfl
@[simp] theorem clearOnes_dom (st : Status) : (st.clearOnes v).dom = (st.dom && !v.getLsbD 1) := rfl
@[simp] theorem clearOnes_ill (st : Status) : (st.clearOnes v).ill = (st.ill && !v.getLsbD 2) := rfl
@[simp] theorem clearOnes_ovr (st : Status) : (st.clearOnes v).ovr = (st.ovr && !v.getLsbD 3) := rfl
@[simp] theorem raise_overrun_path (st : Status) : (st.raise .overrun).path = st.path := rfl
@[simp] theorem raise_illegal_path (st : Status) : (st.raise .illegalCommand).path = st.path := rfl

/-- What a completion leaves in STATUS: the path fields are the answer's (DLAST already says the domain error), DOM is
set with DLAST, ILL and OVR stay. -/
theorem status_complete_eq (st : Status) (p : Path) :
    st.complete p = ⟨st.dom || p.dlast, st.ill, st.ovr, p⟩ := by
  rcases p with ⟨_ | _, _, _⟩ <;> simp [Status.complete, Status.raise]

end Sys2Proof.Machine
end

