-- ==== Sys2Proof/Laws/Ops.lean ====
section
/-! SUPPORT. One lemma per shared operation that says everything it can do: reading a register, latching, issue,
completion, the meaning of a command in its two events, and each host access. -/

namespace Sys2Proof.Machine

variable {s t : State} {i : Instr} {f : InFlight}

theorem busy_eq_true_iff : s.busy = true ↔ ∃ f, s.inflight = some f := by
  simp [State.busy, Option.isSome_iff_exists]

theorem busy_of_inflight (h : s.inflight = some f) : s.busy = true := by simp [State.busy, h]

theorem not_busy_of_idle (h : s.inflight = none) : s.busy = false := by simp [State.busy, h]

/-! ### Reading and latching -/

/-- A register read changes nothing but the draw counter, and gives the content of a written register or a free value. -/
theorem readReg_cases (s : State) (r : RegIx) :
    (s.isWritten r = true ∧ s.readReg r = (s.reg r, s)) ∨
    (s.isWritten r = false ∧ s.readReg r = (Config.freeWord s.draws, { s with draws := s.draws + 1 })) := by
  cases h : s.isWritten r <;> simp [State.readReg, State.draw, h]

theorem readReg_of_written {r : RegIx} (h : s.isWritten r = true) : s.readReg r = (s.reg r, s) := by
  simp [State.readReg, h]

/-- Latching changes nothing but the draw counter. -/
theorem latch_state (src : Option RegIx) (s : State) :
    (latch src s).2 = { s with draws := (latch src s).2.draws } := by
  rcases src with _ | r
  · rfl
  · rcases readReg_cases s r with ⟨_, h⟩ | ⟨_, h⟩ <;> simp [latch, h]

/-- Issue fills INFLIGHT with the command and changes nothing else but the draw counter. -/
theorem issue_eq (s : State) (i : Instr) :
    ∃ a b n, s.issue i = { s with inflight := some ⟨i, a, b⟩, draws := n } := by
  refine ⟨(latch (sources i).1 s).1, (latch (sources i).2 (latch (sources i).1 s).2).1, (s.issue i).draws, ?_⟩
  have h1 := latch_state (sources i).1 s
  have h2 := latch_state (sources i).2 (latch (sources i).1 s).2
  unfold State.issue
  dsimp only
  rw [h2, h1]

@[simp] theorem issue_regs (s : State) (i : Instr) : (s.issue i).regs = s.regs := by
  obtain ⟨_, _, _, e⟩ := issue_eq s i; rw [e]
@[simp] theorem issue_written (s : State) (i : Instr) : (s.issue i).written = s.written := by
  obtain ⟨_, _, _, e⟩ := issue_eq s i; rw [e]
@[simp] theorem issue_status (s : State) (i : Instr) : (s.issue i).status = s.status := by
  obtain ⟨_, _, _, e⟩ := issue_eq s i; rw [e]
@[simp] theorem issue_host (s : State) (i : Instr) : (s.issue i).host = s.host := by
  obtain ⟨_, _, _, e⟩ := issue_eq s i; rw [e]
@[simp] theorem issue_replies (s : State) (i : Instr) : (s.issue i).replies = s.replies := by
  obtain ⟨_, _, _, e⟩ := issue_eq s i; rw [e]
@[simp] theorem issue_busy (s : State) (i : Instr) : (s.issue i).busy = true := rfl

/-- The latched value of a written source, or 0 for an operand the command does not use. -/
theorem latch_of_written {src : Option RegIx} (h : ∀ r, src = some r → s.isWritten r = true) :
    latch src s = ((src.map s.reg).getD 0#64, s) := by
  rcases src with _ | r
  · rfl
  · simp [latch, readReg_of_written (h r rfl)]

/-! ### Completion -/

@[simp] theorem complete_status (s : State) (ans : Answer) :
    (s.complete ans).status = s.status.complete ans.path := rfl

@[simp] theorem complete_inflight (s : State) (ans : Answer) : (s.complete ans).inflight = none := rfl

@[simp] theorem complete_host (s : State) (ans : Answer) : (s.complete ans).host = s.host := by
  rcases ans with ⟨_ | ⟨_, _⟩, _⟩ <;> rfl

@[simp] theorem complete_replies (s : State) (ans : Answer) : (s.complete ans).replies = s.replies := by
  rcases ans with ⟨_ | ⟨_, _⟩, _⟩ <;> rfl

@[simp] theorem complete_draws (s : State) (ans : Answer) : (s.complete ans).draws = s.draws := by
  rcases ans with ⟨_ | ⟨_, _⟩, _⟩ <;> rfl

theorem complete_reg (s : State) (ans : Answer) (q : RegIx) :
    (s.complete ans).reg q = match ans.write with
      | none => s.reg q
      | some (rd, v) => if q = rd then v else s.reg q := by
  rcases ans with ⟨_ | ⟨rd, v⟩, _⟩
  · rfl
  · exact reg_writeReg s rd q v

theorem complete_isWritten (s : State) (ans : Answer) (q : RegIx) :
    (s.complete ans).isWritten q = match ans.write with
      | none => s.isWritten q
      | some (rd, _) => if q = rd then true else s.isWritten q := by
  rcases ans with ⟨_ | ⟨rd, v⟩, _⟩
  · rfl
  · exact isWritten_writeReg s rd q v

/-! ### The two events of a command -/

theorem command_idle (rule : Word → Word → Answer) (h : s.inflight = none) :
    command i rule s = .next (s.issue i) := by simp [command, h]

theorem command_inFlight (rule : Word → Word → Answer) (h : s.inflight = some f) :
    command i rule s = .next (s.complete (rule f.a f.b)) := by simp [command, h]

/-- `EXEC(op, a, b)` by command: what the completion of `i` answers for the latched operands. -/
def answerOf (i : Instr) (a b : Word) : Answer :=
  match i with
  | .nop => nopAnswer
  | .sqrt rd _ => ⟨some (rd, (sqrtRule a).1), (sqrtRule a).2⟩
  | .rseed rd _ => .value rd (rseedValue a)
  | .rest rd _ => ⟨some (rd, restValue a), ⟨false, seedInfinite a, seedClamped a⟩⟩
  | .nrstep rd _ _ => .value rd (nrstepValue a b)
  | .nr4 rd _ _ => .value rd (nr4Value a b)
  | .nrmul rd _ _ => .value rd (nrmulValue a b)
  | .fclass rd _ => .value rd (fclassValue a)
  | .exts rd _ => .value rd (extsValue a)
  | .exte rd _ => .value rd (exteValue a)
  | .extm rd _ => .value rd (extmValue a)
  | .inss rd _ _ => .value rd (inssValue a b)
  | .inse rd _ _ => .value rd (inseValue a b)
  | .insm rd _ _ => .value rd (insmValue a b)

theorem exec_eq_command (i : Instr) (s : State) : exec i s = command i (answerOf i) s := by
  cases i <;> rfl

/-- At an idle block the meaning of every command is its issue. -/
theorem exec_idle (i : Instr) (h : s.inflight = none) : exec i s = .next (s.issue i) := by
  rw [exec_eq_command, command_idle _ h]

/-- With a command in flight the meaning is the completion on the latched operands. -/
theorem exec_inFlight (i : Instr) (h : s.inflight = some f) :
    exec i s = .next (s.complete (answerOf i f.a f.b)) := by
  rw [exec_eq_command, command_inFlight _ h]

/-- A completion writes the command's destination register and no other. -/
theorem answerOf_write (i : Instr) (a b : Word) : (answerOf i a b).write.map Prod.fst = dest i := by
  cases i <;> rfl

/-! ### Host accesses -/

/-- A host read changes nothing but the draw counter. -/
theorem readAt_state (s : State) (off : Nat) :
    (s.readAt off).2 = { s with draws := (s.readAt off).2.draws } := by
  unfold State.readAt State.hostReadReg
  split_ifs
  · rfl
  · rcases readReg_cases s (regAt off) with ⟨_, h⟩ | ⟨_, h⟩ <;> simp [h]
  · rfl
  · rfl
  · rfl

/-- The access check accepts exactly the admissible accesses. -/
theorem accessRefusal_eq_none_iff (off bits : Nat) : accessRefusal off bits = none ↔ admissible off bits = true := by
  unfold accessRefusal admissible
  split_ifs <;> simp <;> omega

theorem guarded_of_admissible {off bits : Nat} (h : admissible off bits = true)
    (g : State → Host.Outcome State Fault Refusal) (s : State) : guarded off bits g s = g s := by
  simp [guarded, (accessRefusal_eq_none_iff off bits).2 h]

/-- Every way a host write at an admissible offset can go. -/
theorem hostWrite_cases (off : Nat) (v : Word) (s : State) :
    (off < cmdOffset ∧ s.busy = true ∧ hostWrite off v s = .next (s.raise .overrun)) ∨
    (off < cmdOffset ∧ s.inflight = none ∧ hostWrite off v s = .next (s.writeReg (regAt off) v)) ∨
    (off = cmdOffset ∧ s.busy = true ∧ hostWrite off v s = .next (s.raise .overrun)) ∨
    (off = cmdOffset ∧ s.inflight = none ∧ (∃ e, decode v = .error e) ∧
      hostWrite off v s = .next (s.raise .illegalCommand)) ∨
    (∃ i, off = cmdOffset ∧ s.inflight = none ∧ decode v = .ok i ∧ hostWrite off v s = .next (s.issue i)) ∨
    (off = statusOffset ∧ hostWrite off v s = .next { s with status := s.status.clearOnes v }) ∨
    (cmdOffset < off ∧ off ≠ statusOffset ∧ hostWrite off v s = .next s) := by
  rcases Nat.lt_trichotomy off cmdOffset with hlt | heq | hgt
  · cases hf : s.inflight with
    | none => simp [hostWrite, hostWriteReg, hlt, State.busy, hf]
    | some f => simp [hostWrite, hostWriteReg, hlt, State.busy, hf]
  · subst heq
    cases hf : s.inflight with
    | some f => simp [hostWrite, hostWriteCmd, State.busy, hf]
    | none =>
      cases hd : decode v with
      | error e => simp [hostWrite, hostWriteCmd, State.busy, hf, hd]
      | ok i => simp [hostWrite, hostWriteCmd, State.busy, hf, hd, exec_idle i hf]
  · refine .inr (.inr (.inr (.inr (.inr ?_))))
    have h1 : ¬ off < cmdOffset := by omega
    have h2 : off ≠ cmdOffset := by omega
    by_cases h3 : off = statusOffset
    · exact .inl ⟨h3, by rw [hostWrite, if_neg h1, if_neg h2, if_pos h3]⟩
    · exact .inr ⟨hgt, h3, by rw [hostWrite, if_neg h1, if_neg h2, if_neg h3]⟩

end Sys2Proof.Machine
end

