-- ==== Sys2Proof/Laws/PerInstr.lean ====
section
/-! SUPPORT. Statements about every command as syntax, one lemma per constructor. `EncodeLegal`: the value that presents
a command to CMD is legal (spec/30_encoding.md R67). -/

namespace Sys2Proof.Laws.EncodeLegal

/-- The command's value is legal. -/
def Statement (i : Instr) : Prop := legal (encodeValue i) = true

theorem nop : Statement .nop := by unfold Statement; decide
theorem sqrt : ∀ rd rs1, Statement (.sqrt rd rs1) := by unfold Statement; decide
theorem rseed : ∀ rd rs1, Statement (.rseed rd rs1) := by unfold Statement; decide
theorem rest : ∀ rd rs1, Statement (.rest rd rs1) := by unfold Statement; decide
theorem nrstep : ∀ rd rs1 rs2, Statement (.nrstep rd rs1 rs2) := by unfold Statement; decide +kernel
theorem nr4 : ∀ rd rs1 rs2, Statement (.nr4 rd rs1 rs2) := by unfold Statement; decide +kernel
theorem nrmul : ∀ rd rs1 rs2, Statement (.nrmul rd rs1 rs2) := by unfold Statement; decide +kernel
theorem fclass : ∀ rd rs1, Statement (.fclass rd rs1) := by unfold Statement; decide
theorem exts : ∀ rd rs1, Statement (.exts rd rs1) := by unfold Statement; decide
theorem exte : ∀ rd rs1, Statement (.exte rd rs1) := by unfold Statement; decide
theorem extm : ∀ rd rs1, Statement (.extm rd rs1) := by unfold Statement; decide
theorem inss : ∀ rd rs1 rs2, Statement (.inss rd rs1 rs2) := by unfold Statement; decide +kernel
theorem inse : ∀ rd rs1 rs2, Statement (.inse rd rs1 rs2) := by unfold Statement; decide +kernel
theorem insm : ∀ rd rs1 rs2, Statement (.insm rd rs1 rs2) := by unfold Statement; decide +kernel

end Sys2Proof.Laws.EncodeLegal
end

