-- ==== Sys2Proof/Laws/Step.lean ====
section
/-! SUPPORT. What a step can do: the inversion of `step` into the completion, the idle wait, and each host move. -/

namespace Sys2Proof.Machine

variable {s t : State}

/-- One host move, said once: a refusal of an inadmissible access, a read, one of the writes, or a reset. -/
theorem hostMove_cases (m : HostMove) (s : State) :
    (∃ off bits r, (m = .read off bits ∨ ∃ v, m = .write off bits v) ∧ admissible off bits = false ∧
      hostMove m s = .refused r) ∨
    (∃ off bits, m = .read off bits ∧ admissible off bits = true ∧
      hostMove m s = .next ((s.readAt off).2.reply (s.readAt off).1)) ∨
    (∃ off bits v, m = .write off bits v ∧ admissible off bits = true ∧ hostMove m s = hostWrite off v s) ∨
    (m = .reset ∧ hostMove m s = .next s.resetBlock) := by
  have refusal : ∀ {off bits : Nat}, admissible off bits = false → ∃ r, accessRefusal off bits = some r := by
    intro off bits h
    cases hr : accessRefusal off bits with
    | some r => exact ⟨r, rfl⟩
    | none => simp [(accessRefusal_eq_none_iff off bits).1 hr] at h
  rcases m with ⟨off, bits⟩ | ⟨off, bits, v⟩ | _
  · cases ha : admissible off bits with
    | false => obtain ⟨r, hr⟩ := refusal ha; exact .inl ⟨off, bits, r, .inl rfl, ha, by simp [hostMove, guarded, hr]⟩
    | true => exact .inr (.inl ⟨off, bits, rfl, ha, by simp [hostMove, guarded_of_admissible ha, hostRead]⟩)
  · cases ha : admissible off bits with
    | false => obtain ⟨r, hr⟩ := refusal ha; exact .inl ⟨off, bits, r, .inr ⟨v, rfl⟩, ha, by simp [hostMove, guarded, hr]⟩
    | true => exact .inr (.inr (.inl ⟨off, bits, v, rfl, ha, by simp [hostMove, guarded_of_admissible ha]⟩))
  · exact .inr (.inr (.inr ⟨rfl, rfl⟩))

/-- One step, said once: the completion of the command in flight, the wait of an idle block, or the next host move. -/
theorem step_cases (s : State) :
    (∃ f, s.inflight = some f ∧ s.blockNext = true ∧ step s = .next (s.complete (answerOf f.cmd f.a f.b))) ∨
    (s.inflight = none ∧ s.host = [] ∧ step s = .next s) ∨
    (∃ p rest, s.host = p :: rest ∧ s.blockNext = false ∧ step s = hostMove p.move { s with host := rest }) := by
  cases hb : s.blockNext with
  | true =>
    cases hf : s.inflight with
    | some f => exact .inl ⟨f, rfl, rfl, by simp [step, nextEvent, hb, blockMove, hf, exec_inFlight _ hf]⟩
    | none =>
      refine .inr (.inl ⟨rfl, ?_, by simp [step, nextEvent, hb, blockMove, hf]⟩)
      cases hh : s.host with
      | nil => rfl
      | cons p rest => simp [State.blockNext, hh, State.busy, hf] at hb
  | false =>
    cases hh : s.host with
    | nil => simp [State.blockNext, hh] at hb
    | cons p rest => exact .inr (.inr ⟨p, rest, rfl, rfl, by simp [step, nextEvent, hb, hh]⟩)

end Sys2Proof.Machine

namespace Sys2Proof

open Sys2Proof.Machine

variable {s t : State}

/-! ### The next host move -/

theorem NextMove.blockNext {u : State} {m : HostMove} (h : NextMove s m u) : s.blockNext = false := by
  obtain ⟨late, rest, hh, hl, -⟩ := h
  cases hb : s.busy with
  | false => simp [State.blockNext, hh, hb]
  | true => simp [State.blockNext, hh, hl hb]

/-- Taking the next move off the list changes nothing else. -/
theorem NextMove.eq {u : State} {m : HostMove} (h : NextMove s m u) : u = { s with host := u.host } := by
  obtain ⟨_, _, _, _, rfl⟩ := h
  rfl

theorem NextMove.regs {u : State} {m : HostMove} (h : NextMove s m u) : u.regs = s.regs := by rw [h.eq]
theorem NextMove.written {u : State} {m : HostMove} (h : NextMove s m u) : u.written = s.written := by rw [h.eq]
theorem NextMove.status {u : State} {m : HostMove} (h : NextMove s m u) : u.status = s.status := by rw [h.eq]
theorem NextMove.inflight {u : State} {m : HostMove} (h : NextMove s m u) : u.inflight = s.inflight := by rw [h.eq]
theorem NextMove.replies {u : State} {m : HostMove} (h : NextMove s m u) : u.replies = s.replies := by rw [h.eq]
theorem NextMove.draws {u : State} {m : HostMove} (h : NextMove s m u) : u.draws = s.draws := by rw [h.eq]

theorem NextMove.reg {u : State} {m : HostMove} (h : NextMove s m u) (r : RegIx) : u.reg r = s.reg r := by
  rw [h.eq]; rfl

theorem NextMove.isWritten {u : State} {m : HostMove} (h : NextMove s m u) (r : RegIx) :
    u.isWritten r = s.isWritten r := by
  rw [h.eq]; rfl

/-- The next move is one. -/
theorem NextMove.unique {u u' : State} {m m' : HostMove} (h : NextMove s m u) (h' : NextMove s m' u') :
    m = m' ∧ u = u' := by
  obtain ⟨_, _, hh, _, rfl⟩ := h
  obtain ⟨_, _, hh', _, rfl⟩ := h'
  rw [hh] at hh'
  cases hh'
  exact ⟨rfl, rfl⟩

end Sys2Proof

namespace Sys2Proof.Machine

variable {s t : State}

/-- A step whose next event is a host move makes that move. -/
theorem step_of_nextMove {u : State} {m : HostMove} (h : NextMove s m u) : step s = hostMove m u := by
  have hb := h.blockNext
  obtain ⟨late, rest, hh, -, rfl⟩ := h
  simp [step, nextEvent, hb, hh]

theorem nextMove_of_not_blockNext {p : Pending} {rest : List Pending} (hh : s.host = p :: rest)
    (hb : s.blockNext = false) : NextMove s p.move { s with host := rest } := by
  refine ⟨p.afterCompletion, rest, hh, fun hbusy => ?_, rfl⟩
  simpa [State.blockNext, hh, hbusy] using hb

/-- A step whose next event is the block's completes the command in flight. -/
theorem step_of_blockNext {f : InFlight} (hf : s.inflight = some f) (hb : s.blockNext = true) :
    step s = .next (s.complete (answerOf f.cmd f.a f.b)) := by
  simp [step, nextEvent, hb, blockMove, hf, exec_inFlight _ hf]

/-- A step answers a next state, or refuses an access that is not admissible. -/
theorem step_next_or_refused (s : State) :
    (∃ t, step s = .next t) ∨
    (∃ u off bits r, admissible off bits = false ∧ step s = .refused r ∧
      (NextMove s (.read off bits) u ∨ ∃ v, NextMove s (.write off bits v) u)) := by
  rcases step_cases s with ⟨_, _, _, e⟩ | ⟨_, _, e⟩ | ⟨p, rest, hh, hb, e⟩
  · exact .inl ⟨_, e⟩
  · exact .inl ⟨_, e⟩
  have hm := nextMove_of_not_blockNext hh hb
  rcases hostMove_cases p.move { s with host := rest } with
    ⟨off, bits, r, hp, ha, e'⟩ | ⟨_, _, _, _, e'⟩ | ⟨off, _, v, _, _, e'⟩ | ⟨_, e'⟩
  · refine .inr ⟨{ s with host := rest }, off, bits, r, ha, e.trans e', ?_⟩
    rcases hp with hp | ⟨v, hp⟩ <;> rw [hp] at hm
    · exact .inl hm
    · exact .inr ⟨v, hm⟩
  · exact .inl ⟨_, e.trans e'⟩
  · left
    rw [e, e']
    rcases hostWrite_cases off v { s with host := rest } with
      ⟨_, _, h⟩ | ⟨_, _, h⟩ | ⟨_, _, h⟩ | ⟨_, _, _, h⟩ | ⟨_, _, _, _, h⟩ | ⟨_, h⟩ | ⟨_, _, h⟩ <;> exact ⟨_, h⟩
  · exact .inl ⟨_, e.trans e'⟩

/-! ### What a step that answers a next state has done -/

/-- Every way a step from `s` can answer `t`. -/
inductive StepCase (s t : State) : Prop where
  /-- The completion of the command in flight. -/
  | completion (f : InFlight) (hf : s.inflight = some f) (hb : s.blockNext = true)
      (ht : t = s.complete (answerOf f.cmd f.a f.b))
  /-- An idle block waits. -/
  | wait (hi : s.inflight = none) (hh : s.host = []) (ht : t = s)
  /-- A host read. -/
  | read (u : State) (off : Nat) (hm : NextMove s (.read off 64) u) (ha : admissible off 64 = true)
      (ht : t = { u with replies := (u.readAt off).1 :: u.replies, draws := (u.readAt off).2.draws })
  /-- A write of CMD or a data register, refused with Overrun. -/
  | overrun (u : State) (off : Nat) (v : Word) (hm : NextMove s (.write off 64 v) u) (ho : off ≤ cmdOffset)
      (hb : s.busy = true) (ht : t = u.raise .overrun)
  /-- A write of a data register. -/
  | writeReg (u : State) (r : RegIx) (v : Word) (hm : NextMove s (.write (8 * r.val) 64 v) u)
      (hi : s.inflight = none) (ht : t = u.writeReg r v)
  /-- An illegal value written to CMD. -/
  | illegal (u : State) (v : Word) (hm : NextMove s (.write cmdOffset 64 v) u) (hi : s.inflight = none)
      (hd : ∃ e, decode v = .error e) (ht : t = u.raise .illegalCommand)
  /-- A command issued. -/
  | issue (u : State) (v : Word) (i : Instr) (hm : NextMove s (.write cmdOffset 64 v) u) (hi : s.inflight = none)
      (hd : decode v = .ok i) (ht : t = u.issue i)
  /-- A write of STATUS. -/
  | clearStatus (u : State) (v : Word) (hm : NextMove s (.write statusOffset 64 v) u)
      (ht : t = { u with status := u.status.clearOnes v })
  /-- A write at a reserved offset. -/
  | reserved (u : State) (off : Nat) (v : Word) (hm : NextMove s (.write off 64 v) u) (ho : statusOffset < off)
      (ht : t = u)
  /-- A reset. -/
  | reset (u : State) (hm : NextMove s .reset u) (ht : t = u.resetBlock)

theorem admissible_bits {off bits : Nat} (h : admissible off bits = true) : bits = 64 := by
  simp [admissible] at h
  exact h.1.1

theorem admissible_offset {off bits : Nat} (h : admissible off bits = true) : off % 8 = 0 ∧ off < 0x80 := by
  simp [admissible] at h
  exact ⟨h.1.2, h.2⟩

/-- The register at an admissible offset below CMD sits at 8·i. -/
theorem offset_regAt {off bits : Nat} (h : admissible off bits = true) (ho : off < cmdOffset) :
    off = 8 * (regAt off).val := by
  have h8 := (admissible_offset h).1
  simp only [cmdOffset] at ho
  simp only [regAt, Fin.ofNat]
  omega

theorem stepCase_of_next (h : step s = .next t) : StepCase s t := by
  rcases step_cases s with ⟨f, hf, hb, e⟩ | ⟨hi, hh, e⟩ | ⟨p, rest, hh, hb, e⟩
  · rw [e] at h; cases h; exact .completion f hf hb rfl
  · rw [e] at h; cases h; exact .wait hi hh rfl
  have hm := nextMove_of_not_blockNext hh hb
  rw [e] at h
  rcases hostMove_cases p.move { s with host := rest } with
    ⟨_, _, _, _, _, e⟩ | ⟨off, bits, hp, ha, e⟩ | ⟨off, bits, v, hp, ha, e⟩ | ⟨hp, e⟩
  · rw [e] at h; cases h
  · rw [e] at h; cases h
    obtain rfl := admissible_bits ha
    rw [hp] at hm
    exact .read _ off hm ha (by rw [State.reply, readAt_state])
  · rw [e] at h
    obtain rfl := admissible_bits ha
    rw [hp] at hm
    rcases hostWrite_cases off v { s with host := rest } with
      ⟨ho, hb, e⟩ | ⟨ho, hi, e⟩ | ⟨ho, hb, e⟩ | ⟨rfl, hi, hd, e⟩ | ⟨i, rfl, hi, hd, e⟩ | ⟨rfl, e⟩ | ⟨ho, hs, e⟩ <;>
      rw [e] at h <;> cases h
    · exact .overrun _ off v hm ho.le hb rfl
    · rw [offset_regAt ha ho] at hm; exact .writeReg _ (regAt off) v hm hi rfl
    · exact .overrun _ off v hm ho.le hb rfl
    · exact .illegal _ v hm hi hd rfl
    · exact .issue _ v i hm hi hd rfl
    · exact .clearStatus _ v hm rfl
    · have := admissible_offset ha
      simp only [cmdOffset, statusOffset] at ho hs
      exact .reserved _ off v hm (by simp only [statusOffset]; omega) rfl
  · rw [e] at h; cases h
    rw [hp] at hm
    exact .reset _ hm rfl

/-- A completion with a result does what `Completed` says, whatever command was in flight. -/
theorem completed_complete (s : State) (g : Option InFlight) (rd : RegIx) (v : Word) (p : Path) :
    Completed s (State.complete { s with inflight := g } ⟨some (rd, v), p⟩) rd v p := by
  refine ⟨reg_writeReg_same .., isWritten_writeReg_same { s with inflight := g } rd v, fun r hr => ⟨?_, ?_⟩,
    status_complete_eq .., rfl, rfl, rfl, rfl⟩
  · exact (reg_writeReg { s with inflight := g } rd r v).trans (if_neg hr)
  · exact (isWritten_writeReg { s with inflight := g } rd r v).trans (if_neg hr)

/-- A completion by its answer: `CompletesWith` asks for the row, the value and path fields of `answerOf`, and the
sources; the second operand of a command of one source does not matter. -/
theorem completesWith_of_answerOf {row : OpcodeRow} {i : Instr} {rd ra rb : RegIx} {res : Word → Word → Word}
    {path : Word → Word → Path} (hr : row.selects (encode i) = true)
    (ha : ∀ a b, answerOf i a b = ⟨some (rd, res a b), path a b⟩) (h1 : (sources i).1 = some ra)
    (h2 : (sources i).2 = some rb ∨ (sources i).2 = none ∧ ∀ a b b', answerOf i a b = answerOf i a b') :
    CompletesWith row i rd ra rb res path := by
  refine ⟨hr, fun s a b h => ⟨_, exec_inFlight i h, ?_⟩, fun s hi wa wb => ?_⟩
  · rw [ha]
    exact completed_complete s s.inflight rd _ _
  · obtain ⟨b, hb, e⟩ : ∃ b, answerOf i (s.reg ra) b = ⟨some (rd, res (s.reg ra) (s.reg rb)), path (s.reg ra) (s.reg rb)⟩ ∧
        s.issue i = { s with inflight := some ⟨i, s.reg ra, b⟩ } := by
      rcases h2 with h2 | ⟨h2, hc⟩
      · refine ⟨s.reg rb, ha _ _, ?_⟩
        simp [State.issue, h1, h2, latch, readReg_of_written wa, readReg_of_written wb]
      · refine ⟨0#64, (hc _ _ _).trans (ha _ _), ?_⟩
        simp [State.issue, h1, h2, latch, readReg_of_written wa]
    refine ⟨_, ?_, completed_complete s (some ⟨i, s.reg ra, b⟩) rd _ _⟩
    rw [issueAndComplete, exec_idle i hi, e]
    simp only
    rw [exec_inFlight (f := ⟨i, s.reg ra, b⟩) i rfl, hb]

/-! ### Runs and their end -/

theorem idle_of_not_busy (h : s.busy = false) : Idle s := by
  cases hf : s.inflight with
  | none => exact hf
  | some f => simp [State.busy, hf] at h

/-- A run of k + n steps is a run of n steps from where k steps lead. -/
theorem run_add (k n : Nat) (h : Host.Core.run core k s = .next t) :
    Host.Core.run core (k + n) s = Host.Core.run core n t := by
  induction k generalizing s with
  | zero => cases h; simp
  | succ k ih =>
    rw [Nat.succ_add]
    simp only [Host.Core.run, core] at *
    cases hs : step s with
    | next s' => rw [hs] at h; exact ih h
    | fault r => rw [hs] at h; cases h
    | refused r => rw [hs] at h; cases h

theorem endState_status (s : State) : (endState s).status = s.statusWord := rfl

theorem endState_reg (s : State) (r : RegIx) : (endState s).regs[r.val] = endReg s r := by simp [endState]

theorem endReg_of_written {r : RegIx} (h : Written s r) : endReg s r = some (s.reg r) := if_pos h

theorem endReg_of_unwritten {r : RegIx} (h : ¬ Written s r) : endReg s r = none := if_neg h

end Sys2Proof.Machine
end

