-- ==== Sys2Proof/Tests/Slice0.lean ====
section
/-! SUPPORT. Small tests of one step or one value each, expected results from spec/95_test_vectors.md and
spec/30_encoding.md, and for every statement with hypotheses a witness that meets them. -/

namespace Sys2Proof.Tests

open Sys2Proof.Machine

/-! ### Small states -/

/-- Every register written and holding `v`; the block idle, nothing pending. -/
def holding (v : Word) : State := { State.reset with regs := .replicate 8 v, written := .replicate 8 true }

/-- `i` in flight on the operands `a` and `b`. -/
def flying (i : Instr) (a b : Word) : State := { holding 1#64 with inflight := some ⟨i, a, b⟩ }

/-- `s` with one host move pending, ordered before a completion. -/
def sends (s : State) (m : HostMove) : State := { s with host := [⟨m, false⟩] }

/-- `s` with the stored STATUS bits of `w`, bit for bit. -/
def statusIs (s : State) (w : Word) : State :=
  { s with status := ⟨w.getLsbD 1, w.getLsbD 2, w.getLsbD 3, ⟨w.getLsbD 4, w.getLsbD 5, w.getLsbD 6⟩⟩ }

/-- The next state, if there is one. -/
def nextOf (o : Host.Outcome State Fault Refusal) : Option State :=
  match o with
  | .next s => some s
  | _       => none

/-- R7 and STATUS after the completion of `i`, whose destination is R7. -/
def completion (i : Instr) (a b : Word) : Option (Word × Word) :=
  (nextOf (exec i (flying i a b))).map fun t => (t.reg 7, t.statusWord)

/-- The command, if the decoder reads one. -/
def decoded (v : Word) : Option Instr :=
  match decode v with
  | .ok i    => some i
  | .error _ => none

/-- The reason the decoder gives, if it refuses. -/
def rejected (v : Word) : Option DecodeError :=
  match decode v with
  | .ok _    => none
  | .error e => some e

/-- STATUS after the host writes `v` at `off`. -/
def statusAfterWrite (s : State) (off : Nat) (v : Word) : Option Word :=
  (nextOf (step (sends s (.write off 64 v)))).map State.statusWord

/-- What a host read at `off` returns. -/
def readsAs (s : State) (off : Nat) : Option Word :=
  (nextOf (step (sends s (.read off 64)))).bind fun t => t.replies.head?

/-- The refusal of a step, if it refuses. -/
def refusalOf (o : Host.Outcome State Fault Refusal) : Option Refusal :=
  match o with
  | .refused r => some r
  | _          => none

/-- The fault of a step, if it faults. -/
def faultOf (o : Host.Outcome State Fault Refusal) : Option Fault :=
  match o with
  | .fault r => some r
  | _        => none

/-! ### Words from the spec (30_encoding.md R61, R66, R70; 95_test_vectors.md section 3) -/

/-- The fields from bit 31 down: reserved 31:19, RS2, 15, RS1, 11, RD, 7:6, OPC. -/
theorem test_decode_words :
    decoded 0b00000000000000000000000000000000#64 = some .nop ∧
    decoded 0b00000000000000000000000100000001#64 = some (.sqrt 1 0) ∧
    decoded 0b00000000000000000000001000000010#64 = some (.rseed 2 0) ∧
    decoded 0b00000000000000000010001100000011#64 = some (.rest 3 2) ∧
    decoded 0b00000000000000010000000100000100#64 = some (.nrstep 1 0 1) ∧
    decoded 0b00000000000000110000001100000101#64 = some (.nr4 3 0 3) ∧
    decoded 0b00000000000000110000010000000110#64 = some (.nrmul 4 0 3) := by decide

theorem test_decode_words_bit_layout :
    decoded 0b00000000000000000011010000001000#64 = some (.fclass 4 3) ∧
    decoded 0b00000000000000000111011000001001#64 = some (.exts 6 7) ∧
    decoded 0b00000000000000000000000100001010#64 = some (.exte 1 0) ∧
    decoded 0b00000000000000000000010100001011#64 = some (.extm 5 0) ∧
    decoded 0b00000000000001010001011100001101#64 = some (.inss 7 1 5) ∧
    decoded 0b00000000000000100000001100001110#64 = some (.inse 3 0 2) ∧
    decoded 0b00000000000001110110010100001111#64 = some (.insm 5 6 7) := by decide

/-- The words of `encode` for the programs P1 to P6. -/
theorem test_encode_words :
    encode (.sqrt 1 0) = 0x00000101#32 ∧ encode (.rest 3 2) = 0x00002303#32 ∧ encode (.nr4 3 0 3) = 0x00030305#32 ∧
    encode (.nrstep 1 0 1) = 0x00010104#32 ∧ encode (.fclass 4 3) = 0x00003408#32 ∧
    encode (.inse 3 0 2) = 0x0002030E#32 := by decide

/-- Each clause of R67 refused: bits 63:32; every reserved field; an unused field; an opcode without a row. -/
theorem test_illformed_values_refused :
    rejected 0x0000000100000101#64 = some .upperHalf ∧ rejected 0x0000000000000141#64 = some .reservedBit ∧
    rejected 0x0000000000000181#64 = some .reservedBit ∧ rejected 0x0000000000000901#64 = some .reservedBit ∧
    rejected 0x0000000000008101#64 = some .reservedBit ∧ rejected 0x0000000000080105#64 = some .reservedBit ∧
    rejected 0x0000000080000105#64 = some .reservedBit ∧ rejected 0x0000000000010101#64 = some .unusedField ∧
    rejected 0x0000000000000100#64 = some .unusedField ∧ rejected 0x0000000000000007#64 = some (.unknownOpcode 0x07#6) ∧
    rejected 0x000000000000000C#64 = some (.unknownOpcode 0x0C#6) ∧
    rejected 0x0000000000000010#64 = some (.unknownOpcode 0x10#6) ∧
    rejected 0x000000000000003F#64 = some (.unknownOpcode 0x3F#6) := by decide

/-- The same values against the table of masks. -/
theorem test_illformed_values_illegal :
    [0x0000000100000101#64, 0x0000000000000141#64, 0x0000000000000181#64, 0x0000000000000901#64].any legal = false ∧
    [0x0000000000008101#64, 0x0000000000080105#64, 0x0000000080000105#64, 0x0000000000010101#64].any legal = false ∧
    [0x0000000000000100#64, 0x0000000000000007#64, 0x000000000000000C#64, 0x0000000000000010#64].any legal = false := by
  decide

/-- Each clause of 20_memory.md R41, by its refusal; and the last access inside. -/
theorem test_accesses_outside_refused :
    refusalOf (step (sends (holding 1#64) (.read 0x00 32))) = some (.narrowAccess 32) ∧
    refusalOf (step (sends (holding 1#64) (.write 0x00 128 0#64))) = some (.wideAccess 128) ∧
    refusalOf (step (sends (holding 1#64) (.read 0x04 64))) = some (.misaligned 0x04) ∧
    refusalOf (step (sends (holding 1#64) (.write 0x80 64 0#64))) = some (.outsideWindow 0x80) ∧
    admissible 0x78 64 = true ∧ admissible 0x80 64 = false ∧ admissible 0x7C 64 = false ∧ admissible 0x78 32 = false := by
  decide

/-! ### Values and completions (95_test_vectors.md section 2) -/

/-- IF1: NOP in flight with SINF = 1 completes with STATUS 0. -/
theorem test_nop : (nextOf (exec .nop (statusIs (flying .nop 0#64 0#64) 0x20#64))).map
    (fun t => (t.statusWord, t.regs)) = some (0x0#64, (holding 1#64).regs) := by decide

/-- BL2, BL4, BL6, BL8, BL10. -/
theorem test_fclass :
    [0x8000000000000000#64, 0x800FFFFFFFFFFFFF#64, 0xC000000000000000#64, 0xFFF0000000000000#64,
      0xFFF0000000000001#64].map (fun a => completion (.fclass 7 0) a 0#64) =
    [some (0x8#64, 0#64), some (0x9#64, 0#64), some (0xA#64, 0#64), some (0xB#64, 0#64), some (0xC#64, 0#64)] := by
  decide

/-- BL4, BL11. -/
theorem test_extract :
    completion (.exts 7 0) 0x800FFFFFFFFFFFFF#64 0#64 = some (0x1#64, 0#64) ∧
    completion (.exte 7 0) 0x400921FB54442D18#64 0#64 = some (0x400#64, 0#64) ∧
    completion (.extm 7 0) 0x400921FB54442D18#64 0#64 = some (0x921FB54442D18#64, 0#64) := by decide

/-- IN3, IN5, IN10. -/
theorem test_insert :
    completion (.inss 7 0 1) 0x4010000000000000#64 0xFFFFFFFFFFFFFFFE#64 = some (0x4010000000000000#64, 0#64) ∧
    completion (.inse 7 0 1) 0x3FF0000000000000#64 0xFFFFFFFFFFFFF7FF#64 = some (0x7FF0000000000000#64, 0#64) ∧
    completion (.insm 7 0 1) 0x7FF0000000000000#64 0xFFF0000000000001#64 = some (0x7FF0000000000001#64, 0#64) := by
  decide

/-- RS4, RS7, RS10, RS15. -/
theorem test_rseed :
    completion (.rseed 7 0) 0x4008000000000000#64 0#64 = some (0x3FD5555560000000#64, 0#64) ∧
    completion (.rseed 7 0) 0x47EC363CBF21F28A#64 0#64 = some (0x37F225FD00000000#64, 0#64) ∧
    completion (.rseed 7 0) 0x8000000000000000#64 0#64 = some (0xFFF0000000000000#64, 0#64) ∧
    completion (.rseed 7 0) 0xFFF0000000000001#64 0#64 = some (0xFFF8000000000000#64, 0#64) := by decide +kernel

/-- RE4, RE5, RE8, RE11, RE13, RE15. -/
theorem test_rest :
    completion (.rest 7 0) 0x4000000000000000#64 0#64 = some (0x3FF8000000000000#64, 0#64) ∧
    completion (.rest 7 0) 0x3FD5555560000000#64 0#64 = some (0x3FE2AAAAB0000000#64, 0#64) ∧
    completion (.rest 7 0) 0xFFF0000000000000#64 0#64 = some (0xDFF0000000000000#64, 0x20#64) ∧
    completion (.rest 7 0) 0x0000000000000001#64 0#64 = some (0x2000000000000000#64, 0x40#64) ∧
    completion (.rest 7 0) 0x7FF8000000000000#64 0#64 = some (0x5FF4000000000000#64, 0#64) ∧
    completion (.rest 7 0) 0x0010000000000000#64 0#64 = some (0x2000000000000000#64, 0#64) := by decide +kernel

/-- NS4, NS12, NS14. -/
theorem test_nrstep :
    completion (.nrstep 7 0 1) 0x4000000000000000#64 0x3FE8000000000000#64 = some (0x3FE6800000000000#64, 0#64) ∧
    completion (.nrstep 7 0 1) 0x7FF4000000000000#64 0xFFF0000000000005#64 = some (0xFFF8000000000005#64, 0#64) ∧
    completion (.nrstep 7 0 1) 0x3FF0000000000000#64 0x4000000000000000#64 = some (0xBFF0000000000000#64, 0#64) := by
  decide +kernel

/-- N42, N45. -/
theorem test_nr4 :
    completion (.nr4 7 0 1) 0x4000000000000000#64 0x3FE8000000000000#64 = some (0x3FE6A09E667F3BCD#64, 0#64) ∧
    completion (.nr4 7 0 1) 0x3DDB7CDFD9D7BDBB#64 0x40F9502F90000000#64 = some (0x40F86A0000000000#64, 0#64) := by
  decide +kernel

/-- NM2, NM3. -/
theorem test_nrmul :
    completion (.nrmul 7 0 1) 0x4000000000000000#64 0x3FE6A09E667F3BCD#64 = some (0x3FF6A09E667F3BCD#64, 0#64) ∧
    completion (.nrmul 7 0 1) 0x7FF4000000000000#64 0x7FF0000000000002#64 = some (0x7FF8000000000002#64, 0#64) := by
  decide +kernel

/-- SQ1, SQ4, SQ13, SQ19. -/
theorem test_sqrt :
    completion (.sqrt 7 0) 0x3DDB7CDFD9D7BDBB#64 0#64 = some (0x3EE4F8B588E368F1#64, 0#64) ∧
    completion (.sqrt 7 0) 0x4022000000000000#64 0#64 = some (0x4008000000000001#64, 0#64) ∧
    completion (.sqrt 7 0) 0xC010000000000000#64 0#64 = some (0xFFF8000000000000#64, 0x12#64) ∧
    completion (.sqrt 7 0) 0xFFF8000000000000#64 0#64 = some (0xFFF8000000000000#64, 0#64) := by decide +kernel

/-- SQ24, SQ25, SQ28, SQ29: both sides of the bounds of R126 and R127. -/
theorem test_sqrt_bounds :
    completion (.sqrt 7 0) 0x37F0000040000000#64 0#64 = some (0x37F0000040000000#64, 0x20#64) ∧
    completion (.sqrt 7 0) 0x37F0000040000001#64 0#64 = some (0x3BF000001FFFFFE1#64, 0#64) ∧
    completion (.sqrt 7 0) 0x47EFFFFFEFFFFFFF#64 0#64 = some (0x43EFFFFFF7FFFFFF#64, 0#64) ∧
    completion (.sqrt 7 0) 0x47EFFFFFF0000000#64 0#64 = some (0x28243FFFF5E00000#64, 0x40#64) := by decide +kernel

/-- The largest pattern below 2^512 has a finite square: R83 and R86, where R96's last clause says otherwise (log 16). -/
theorem test_square_below_overflow :
    fmul64 0x5FEFFFFFFFFFFFFF#64 0x5FEFFFFFFFFFFFFF#64 = 0x7FEFFFFFFFFFFFFE#64 ∧
    fmul64 0x5FF0000000000000#64 0x5FF0000000000000#64 = 0x7FF0000000000000#64 := by decide +kernel

/-! ### Launch and end of a run (70_reset_and_hazards.md R184, R189; program P1) -/

theorem test_clean_entry :
    CleanEntry [] State.reset ∧ CleanEntry [0] (State.reset.writeReg 0 0x4010000000000000#64) := by
  simp only [CleanEntry, Idle, NoFault, WrittenExactly, Written]
  decide

/-- P1's last step, with R0 alone written before it: its end state names R0 and R1 and no other register. -/
theorem test_end_state :
    (nextOf (step { State.reset.writeReg 0 0x4010000000000000#64 with
      inflight := some ⟨.sqrt 1 0, 0x4010000000000000#64, 0#64⟩ })).map endState =
    some ⟨#v[some 0x4010000000000000#64, some 0x4000000000000000#64, none, none, none, none, none, none], 0#64⟩ := by
  decide +kernel

/-! ### The host port (95_test_vectors.md section 2.8) -/

/-- IF2, IF6 and IF7. -/
theorem test_cmd_writes :
    statusAfterWrite (holding 1#64) 0x40 0x00000007#64 = some 0x04#64 ∧
    statusAfterWrite (holding 1#64) 0x40 0x00000100#64 = some 0x04#64 ∧
    statusAfterWrite (flying .nop 0#64 0#64) 0x40 0x00000007#64 = some 0x09#64 := by decide

/-- IF8: R5 is unchanged and OVR is set. -/
theorem test_busy_register_write :
    (nextOf (step (sends (flying .nop 0#64 0#64) (.write 0x28 64 9#64)))).map (fun t => (t.reg 5, t.statusWord)) =
      some (1#64, 0x09#64) := by decide

/-- IF10, IF11, IF12. -/
theorem test_status_writes :
    statusAfterWrite (statusIs (holding 1#64) 0x1E#64) 0x48 0x0E#64 = some 0x10#64 ∧
    statusAfterWrite (statusIs (holding 1#64) 0x0E#64) 0x48 0x02#64 = some 0x0C#64 ∧
    statusAfterWrite (holding 1#64) 0x48 0xFFFFFFFFFFFFFFFF#64 = some 0x00#64 := by decide

/-- IF9, IF13, and a written register. -/
theorem test_reads :
    readsAs (holding 7#64) 0x40 = some 0#64 ∧ readsAs State.reset 0x48 = some 0#64 ∧
    readsAs (holding 7#64) 0x38 = some 7#64 := by decide

/-- IF14: the strict step stops; the step goes on. -/
theorem test_unwritten_read :
    faultOf (strictStep (sends State.reset (.read 0x00 64))) = some (.unwrittenRead 0) ∧
    (nextOf (step (sends State.reset (.read 0x00 64)))).map State.draws = some 1 := by decide

/-- The first command after reset is issued: one word of each family. -/
theorem test_first_instruction_after_reset :
    [0x00000000, 0x00000101, 0x0002030E].map (fun w =>
      (nextOf (step (State.reset.withFetchWord 32 w))).bind fun t => t.inflight.map InFlight.cmd) =
    [some .nop, some (.sqrt 1 0), some (.inse 3 0 2)] ∧
    decodeTableWord 32 0x00000101 = some (.sqrt 1 0) ∧ decodeTableWord 32 0x00000007 = none := by decide

/-! ### Witnesses: states that meet the hypotheses of the statements -/

theorem sends_nextMove (v : Word) (m : HostMove) : NextMove (sends (holding v) m) m (holding v) :=
  ⟨false, [], rfl, fun _ => rfl, rfl⟩

theorem sends_nextMove_flying (i : Instr) (a b : Word) (m : HostMove) :
    NextMove (sends (flying i a b) m) m (flying i a b) :=
  ⟨false, [], rfl, fun _ => rfl, rfl⟩

/-- The last clause: the smallest value above the word's fields, at an idle block. -/
theorem witness_LegalExactlyByFields :
    NextMove (sends (holding 1#64) (.write 0x40 64 0x80000#64)) (.write 0x40 64 0x80000#64) (holding 1#64) ∧
    Idle (sends (holding 1#64) (.write 0x40 64 0x80000#64)) ∧ legal 0x80000#64 = false :=
  ⟨sends_nextMove _ _, rfl, by decide⟩

theorem witness_DecodedValueIsTheEncoding : decode 0x00000101#64 = .ok (.sqrt 1 0) := by rfl

theorem witness_NoWordSelectsTwoRows :
    (opcodeMap.filter (·.selects 0x00077705#32)).map OpcodeRow.mnemonic = ["NR4"] := by decide

theorem witness_ResetEmptiesTheBlock :
    NextMove (sends (flying (.sqrt 1 0) 2#64 0#64) .reset) .reset (flying (.sqrt 1 0) 2#64 0#64) :=
  sends_nextMove_flying _ _ _ _

theorem witness_StepRunsTheDecodedCommand :
    NextMove (sends (holding 1#64) (.write 0x40 64 0x00000101#64)) (.write 0x40 64 0x00000101#64) (holding 1#64) ∧
    Idle (sends (holding 1#64) (.write 0x40 64 0x00000101#64)) ∧ decode 0x00000101#64 = .ok (.sqrt 1 0) :=
  ⟨sends_nextMove _ _, rfl, rfl⟩

/-- With no move pending, and with one ordered after the completion. -/
theorem witness_StepCompletesTheCommandInFlight :
    (flying .nop 0#64 0#64).inflight = some ⟨.nop, 0#64, 0#64⟩ ∧ (flying .nop 0#64 0#64).host = [] ∧
    ∃ s : State, s.inflight = some ⟨.nop, 0#64, 0#64⟩ ∧ s.host = [⟨.write 0x40 64 0#64, true⟩] :=
  ⟨rfl, rfl, { flying .nop 0#64 0#64 with host := [⟨.write 0x40 64 0#64, true⟩] }, rfl, rfl⟩

/-- A run that has ended with R7 written, and one that ends after the completion of a command in flight. -/
theorem witness_IdleBlockWaits :
    RunEnded (holding 1#64) ∧ (endState (holding 1#64)).regs[7] = some 1#64 ∧
    ∃ e, RunEndsIn (flying .nop 0#64 0#64) e :=
  ⟨⟨rfl, rfl⟩, by decide, ⟨_, 1, _, rfl, ⟨rfl, rfl⟩, rfl⟩⟩

theorem witness_IssueLatchesTheSources : Idle (holding 1#64) ∧ SourcesWritten (holding 1#64) (.nr4 3 0 7) := by
  simp only [Idle, SourcesWritten, Written]
  decide

/-- Both sources unwritten; one unwritten and one written. -/
theorem witness_IssueOfAnUnwrittenSourceDraws :
    (Idle State.reset ∧ ¬ Written State.reset 0 ∧ ¬ Written State.reset 7) ∧
    (Idle (State.reset.writeReg 0 5#64) ∧ Written (State.reset.writeReg 0 5#64) 0 ∧
      ¬ Written (State.reset.writeReg 0 5#64) 7) := by
  simp only [Idle, Written]
  decide

/-- The registers of `holding v` are written and its block is idle: the hypotheses of issue and completion together. -/
theorem holding_ready (v : Word) (ra rb : RegIx) :
    Idle (holding v) ∧ Written (holding v) ra ∧ Written (holding v) rb := by
  refine ⟨rfl, ?_, ?_⟩ <;> simp [Written, State.isWritten, holding]

theorem witness_NopCompletes : Idle (holding 1#64) ∧ (flying .nop 0#64 0#64).inflight = some ⟨.nop, 0#64, 0#64⟩ :=
  ⟨rfl, rfl⟩

theorem witness_FclassCompletes :
    (flying (.fclass 7 7) 2#64 0#64).inflight = some ⟨.fclass 7 7, 2#64, 0#64⟩ ∧
    Idle (holding 2#64) ∧ Written (holding 2#64) 7 ∧ Written (holding 2#64) 7 := ⟨rfl, holding_ready _ _ _⟩

theorem witness_ExtractCommandsComplete :
    (flying (.exts 0 7) 2#64 0#64).inflight = some ⟨.exts 0 7, 2#64, 0#64⟩ ∧
    (flying (.exte 0 7) 2#64 0#64).inflight = some ⟨.exte 0 7, 2#64, 0#64⟩ ∧
    (flying (.extm 0 7) 2#64 0#64).inflight = some ⟨.extm 0 7, 2#64, 0#64⟩ ∧
    Idle (holding 2#64) ∧ Written (holding 2#64) 7 ∧ Written (holding 2#64) 7 :=
  ⟨rfl, rfl, rfl, holding_ready _ _ _⟩

theorem witness_InsertCommandsComplete :
    (flying (.inss 0 7 7) 2#64 3#64).inflight = some ⟨.inss 0 7 7, 2#64, 3#64⟩ ∧
    (flying (.inse 0 7 7) 2#64 3#64).inflight = some ⟨.inse 0 7 7, 2#64, 3#64⟩ ∧
    (flying (.insm 0 7 7) 2#64 3#64).inflight = some ⟨.insm 0 7 7, 2#64, 3#64⟩ ∧
    Idle (holding 2#64) ∧ Written (holding 2#64) 7 ∧ Written (holding 2#64) 7 :=
  ⟨rfl, rfl, rfl, holding_ready _ _ _⟩

theorem witness_RseedCompletes :
    (flying (.rseed 1 1) 2#64 0#64).inflight = some ⟨.rseed 1 1, 2#64, 0#64⟩ ∧
    Idle (holding 2#64) ∧ Written (holding 2#64) 1 ∧ Written (holding 2#64) 1 := ⟨rfl, holding_ready _ _ _⟩

theorem witness_RestCompletes :
    (flying (.rest 1 1) 2#64 0#64).inflight = some ⟨.rest 1 1, 2#64, 0#64⟩ ∧
    Idle (holding 2#64) ∧ Written (holding 2#64) 1 ∧ Written (holding 2#64) 1 := ⟨rfl, holding_ready _ _ _⟩

theorem witness_RefinerCommandsComplete :
    (flying (.nrstep 1 0 1) 2#64 3#64).inflight = some ⟨.nrstep 1 0 1, 2#64, 3#64⟩ ∧
    (flying (.nr4 1 0 1) 2#64 3#64).inflight = some ⟨.nr4 1 0 1, 2#64, 3#64⟩ ∧
    (flying (.nrmul 1 0 1) 2#64 3#64).inflight = some ⟨.nrmul 1 0 1, 2#64, 3#64⟩ ∧
    Idle (holding 2#64) ∧ Written (holding 2#64) 0 ∧ Written (holding 2#64) 1 :=
  ⟨rfl, rfl, rfl, holding_ready _ _ _⟩

theorem witness_SqrtCompletes :
    (flying (.sqrt 1 0) 2#64 0#64).inflight = some ⟨.sqrt 1 0, 2#64, 0#64⟩ ∧
    Idle (holding 2#64) ∧ Written (holding 2#64) 0 ∧ Written (holding 2#64) 0 := ⟨rfl, holding_ready _ _ _⟩

/-- Its issue, and a completion that finds DOM set. -/
theorem witness_CommandFrame :
    (∃ t, exec (.exts 0 7) (holding 1#64) = .next t ∧ Idle (holding 1#64)) ∧
    (∃ t, exec (.exts 0 7) (statusIs (flying (.exts 0 7) 2#64 0#64) 0x02#64) = .next t) ∧
    (statusIs (flying (.exts 0 7) 2#64 0#64) 0x02#64).status.dom = true ∧ dest (.exts 0 7) ≠ some 7 :=
  ⟨⟨_, rfl, rfl⟩, ⟨_, rfl⟩, rfl, by decide⟩

/-- Two EXTS of different registers in flight on one operand, in two states that differ in a register and in STATUS. -/
theorem witness_CompletionIsPure :
    (Instr.exts 0 7).opc = (Instr.exts 3 5).opc ∧
    (flying (.exts 0 7) 2#64 0#64).inflight = some ⟨.exts 0 7, 2#64, 0#64⟩ ∧
    (statusIs ((flying (.exts 3 5) 2#64 0#64).writeReg 7 9#64) 0x0E#64).inflight = some ⟨.exts 3 5, 2#64, 0#64⟩ ∧
    (∃ t₁, exec (.exts 0 7) (flying (.exts 0 7) 2#64 0#64) = .next t₁) ∧
    (∃ t₂, exec (.exts 3 5) (statusIs ((flying (.exts 3 5) 2#64 0#64).writeReg 7 9#64) 0x0E#64) = .next t₂) :=
  ⟨rfl, rfl, rfl, ⟨_, rfl⟩, ⟨_, rfl⟩⟩

theorem witness_Nr4IsFourNrsteps :
    (0 : RegIx) ≠ 1 ∧ Idle (holding 1#64) ∧ Written (holding 1#64) 0 ∧ Written (holding 1#64) 2 :=
  ⟨by decide, holding_ready _ _ _⟩

/-- A signalling NaN first and second, in both formats; zero by infinity; infinities of one sign. -/
theorem witness_PrimitivesByOperandClass :
    isNan 0x7FF0000000000001#64 = true ∧ (isNan 0x3FF0000000000000#64 = false ∧ isNan 0xFFF0000000000001#64 = true) ∧
    isNan32 0x7F800001#32 = true ∧ (isNan32 0x3F800000#32 = false ∧ isNan32 0xFF800001#32 = true) ∧
    (isZero 0x8000000000000000#64 = true ∧ isInf 0x7FF0000000000000#64 = true) ∧
    sign64 0x7FF0000000000000#64 = sign64 0x7FF0000000000000#64 ∧ isZero32 0x80000000#32 = true ∧
    isInf32 0xFF800000#32 = true := by decide

/-- The clauses on other operands: an infinity by a nonzero number, two finite numbers, a zero by a number; and in
binary32 the same. -/
theorem witness_PrimitivesByOperandClass_numbers :
    (isInf 0xFFF0000000000000#64 = true ∧ isNan 0xFFF0000000000000#64 = false ∧ isZero 0xFFF0000000000000#64 = false) ∧
    (isNan 0x7FEFFFFFFFFFFFFF#64 = false ∧ isInf 0x7FEFFFFFFFFFFFFF#64 = false ∧ isZero 0x7FEFFFFFFFFFFFFF#64 = false) ∧
    (isNan 0x8000000000000000#64 = false ∧ isZero 0x8000000000000000#64 = true) ∧
    signNat 0x7FF0000000000000#64 ≠ signNat 0xFFF0000000000000#64 ∧
    (isInf32 0x7F800000#32 = true ∧ isNan32 0x7F800000#32 = false) ∧
    (isNan32 0xFF7FFFFF#32 = false ∧ isInf32 0xFF7FFFFF#32 = false ∧ isZero32 0xFF7FFFFF#32 = false) ∧
    (isNan32 0x80000000#32 = false ∧ isZero32 0x80000000#32 = true) := by decide

/-- Both ends of the interval, and the patterns just outside. -/
theorem witness_LessThanZeroInterval :
    ltZero 0x8000000000000001#64 = true ∧ ltZero 0xFFF0000000000000#64 = true ∧ ltZero 0x8000000000000000#64 = false ∧
    ltZero 0xFFF0000000000001#64 = false := by decide

/-- The ends of REST's exponent range, from exponent 1 and exponent 0x7FF; and a subnormal x ≥ 0. -/
theorem witness_InitialGuessRange :
    expNat (restValue 0x0010000000000000#64) = 0x200 ∧ expNat (restValue 0x7FF0000000000000#64) = 0x5FF ∧
    isNan 0x0000000000000001#64 = false ∧ signNat 0x0000000000000001#64 = 0 := by decide

/-- A tie: 2^53 + 1 lies midway between the patterns of 2^53 and 2^53 + 2. -/
theorem witness_RoundToIsNearestEven :
    FiniteFields binary64 (roundTo binary64 9007199254740993 false) ∧ FiniteFields binary64 ⟨false, 1076, 1⟩ ∧
    |(9007199254740993 : Rat) - fieldsValue binary64 (roundTo binary64 9007199254740993 false)| =
      |(9007199254740993 : Rat) - fieldsValue binary64 ⟨false, 1076, 1⟩| ∧
    fieldsValue binary64 ⟨false, 1076, 1⟩ ≠ fieldsValue binary64 (roundTo binary64 9007199254740993 false) := by
  simp only [FiniteFields]
  decide +kernel

/-- The bound itself overflows to infinity; the largest finite value does not. -/
theorem witness_RoundToOverflowBound :
    roundTo binary64 (((2 ^ 54 - 1 : Nat) : Rat) * pow2 970) false = ⟨false, 2047, 0⟩ ∧
    roundTo binary64 (((2 ^ 53 - 1 : Nat) : Rat) * pow2 971) false = ⟨false, 2046, 2 ^ 52 - 1⟩ := by decide +kernel

theorem witness_RoundingAValueIsExact : Finite64 0x8000000000000001#64 ∧ Finite32 0x7F7FFFFF#32 := by
  simp only [Finite64, Finite32]
  decide

/-- Both sides of narrow's two bounds, and a NaN, an infinity, a finite pattern and a zero in each direction. -/
theorem witness_NarrowAndWidenByOperandClass :
    (Finite64 0x47EFFFFFF0000000#64 ∧ signNat 0x47EFFFFFF0000000#64 = 0 ∧
      narrow 0x47EFFFFFF0000000#64 = 0x7F800000#32 ∧ narrow 0x47EFFFFFEFFFFFFF#64 = 0x7F7FFFFF#32) ∧
    (narrow 0x3690000000000000#64 = 0x00000000#32 ∧ narrow 0x3690000000000001#64 = 0x00000001#32) ∧
    (isNan 0xFFF0000000000001#64 = true ∧ isInf 0xFFF0000000000000#64 = true) ∧
    (isNan32 0xFF800001#32 = true ∧ isInf32 0xFF800000#32 = true) ∧
    (Finite32 0x00000001#32 ∧ expNat (widen 0x80000000#32) = 0) := by
  simp only [Finite64, Finite32]
  decide +kernel

/-- Both sides of the bound. -/
theorem witness_GuardPathBound :
    (signNat 0x37F0000040000000#64 = 0 ∧ isNan 0x37F0000040000000#64 = false ∧ isZero 0x37F0000040000000#64 = false) ∧
    (signNat 0x37F0000040000001#64 = 0 ∧ isNan 0x37F0000040000001#64 = false ∧ isZero 0x37F0000040000001#64 = false) := by
  decide

/-- Both sides of the bound, and +∞. -/
theorem witness_ClampPathBound :
    (signNat 0x47EFFFFFF0000000#64 = 0 ∧ isNan 0x47EFFFFFF0000000#64 = false ∧ isZero 0x47EFFFFFF0000000#64 = false) ∧
    (signNat 0x47EFFFFFEFFFFFFF#64 = 0 ∧ isNan 0x47EFFFFFEFFFFFFF#64 = false ∧ isZero 0x47EFFFFFEFFFFFFF#64 = false) ∧
    (signNat 0x7FF0000000000000#64 = 0 ∧ isNan 0x7FF0000000000000#64 = false ∧ isZero 0x7FF0000000000000#64 = false) := by
  decide

theorem witness_SqrtOfNanIsQuiet : isNan 0xFFF0000000000001#64 = true := by decide

/-- The three branches: the destination in flight, a written register, an unwritten one. -/
theorem witness_DataRegisterRead :
    (NextMove (sends (flying (.exts 7 0) 2#64 0#64) (.read (8 * (7 : RegIx).val) 64)) (.read 0x38 64)
        (flying (.exts 7 0) 2#64 0#64) ∧
      (flying (.exts 7 0) 2#64 0#64).inflight.bind (fun f => dest f.cmd) = some 7) ∧
    (NextMove (sends (holding 1#64) (.read 0x00 64)) (.read 0x00 64) (holding 1#64) ∧
      (holding 1#64).isWritten 0 = true) ∧
    (NextMove (sends State.reset (.read 0x38 64)) (.read 0x38 64) State.reset ∧ State.reset.isWritten 7 = false) :=
  ⟨⟨sends_nextMove_flying _ _ _ _, rfl⟩, ⟨sends_nextMove _ _, by decide⟩,
    ⟨⟨false, [], rfl, fun _ => rfl, rfl⟩, by decide⟩⟩

theorem witness_UnwrittenRegisterReadsAsAFreeValue :
    NextMove (sends State.reset (.read 0x38 64)) (.read 0x38 64) State.reset ∧ ¬ Written (sends State.reset (.read 0x38 64)) 7 :=
  ⟨⟨false, [], rfl, fun _ => rfl, rfl⟩, by simp only [Written]; decide⟩

/-- An idle block and a busy one; a write of CMD while BUSY; a write of STATUS and a read. -/
theorem witness_DataRegisterWrite :
    (NextMove (sends (holding 1#64) (.write 0x38 64 9#64)) (.write 0x38 64 9#64) (holding 1#64) ∧
      Idle (sends (holding 1#64) (.write 0x38 64 9#64))) ∧
    (NextMove (sends (flying .nop 0#64 0#64) (.write 0x38 64 9#64)) (.write 0x38 64 9#64) (flying .nop 0#64 0#64) ∧
      (sends (flying .nop 0#64 0#64) (.write 0x38 64 9#64)).busy = true) ∧
    (NextMove (sends (flying .nop 0#64 0#64) (.write 0x40 64 0#64)) (.write 0x40 64 0#64) (flying .nop 0#64 0#64) ∧
      (sends (flying .nop 0#64 0#64) (.write 0x40 64 0#64)).busy = true) ∧
    (nextOf (step (sends (statusIs (flying .nop 0#64 0#64) 0x8#64) (.write 0x48 64 0x2#64)))).map
      (fun t => t.status.ovr) = some true ∧
    (NextMove (sends (flying .nop 0#64 0#64) (.read 0x40 64)) (.read 0x40 64) (flying .nop 0#64 0#64) ∧
      ∃ t, step (sends (flying .nop 0#64 0#64) (.read 0x40 64)) = .next t) :=
  ⟨⟨sends_nextMove _ _, rfl⟩, ⟨sends_nextMove_flying _ _ _ _, rfl⟩, ⟨sends_nextMove_flying _ _ _ _, rfl⟩, by decide,
    ⟨sends_nextMove_flying _ _ _ _, ⟨_, rfl⟩⟩⟩

/-- Busy; idle with an illegal value; idle with a legal one. -/
theorem witness_CommandWrite :
    (NextMove (sends (flying .nop 0#64 0#64) (.write 0x40 64 7#64)) (.write 0x40 64 7#64) (flying .nop 0#64 0#64) ∧
      (sends (flying .nop 0#64 0#64) (.write 0x40 64 7#64)).busy = true) ∧
    (NextMove (sends (holding 1#64) (.write 0x40 64 7#64)) (.write 0x40 64 7#64) (holding 1#64) ∧
      Idle (sends (holding 1#64) (.write 0x40 64 7#64)) ∧ legal 7#64 = false) ∧
    (NextMove (sends (holding 1#64) (.write 0x40 64 0x101#64)) (.write 0x40 64 0x101#64) (holding 1#64) ∧
      Idle (sends (holding 1#64) (.write 0x40 64 0x101#64)) ∧ legal 0x101#64 = true) :=
  ⟨⟨sends_nextMove_flying _ _ _ _, rfl⟩, ⟨sends_nextMove _ _, rfl, by decide⟩, ⟨sends_nextMove _ _, rfl, by decide⟩⟩

/-- A read of each, and a step that ends with BUSY = 1. -/
theorem witness_CmdAndStatusRead :
    NextMove (sends (holding 1#64) (.read 0x40 64)) (.read 0x40 64) (holding 1#64) ∧
    NextMove (sends (flying .nop 0#64 0#64) (.read 0x48 64)) (.read 0x48 64) (flying .nop 0#64 0#64) ∧
    (nextOf (step (sends (statusIs (flying .nop 0#64 0#64) 0x20#64) (.read 0x48 64)))).map
      (fun t => (t.busy, t.status.path.sinf)) = some (true, true) :=
  ⟨sends_nextMove _ _, sends_nextMove_flying _ _ _ _, by decide⟩

theorem witness_StatusWrite :
    NextMove (sends (flying .nop 0#64 0#64) (.write 0x48 64 0xE#64)) (.write 0x48 64 0xE#64) (flying .nop 0#64 0#64) :=
  sends_nextMove_flying _ _ _ _

/-- A read at the first reserved offset and a write at the last. -/
theorem witness_ReservedOffsets :
    NextMove (sends (holding 1#64) (.read 0x50 64)) (.read 0x50 64) (holding 1#64) ∧
    NextMove (sends (flying .nop 0#64 0#64) (.write 0x78 64 5#64)) (.write 0x78 64 5#64) (flying .nop 0#64 0#64) :=
  ⟨sends_nextMove _ _, sends_nextMove_flying _ _ _ _⟩

/-- The last access inside the window and the first beyond it. -/
theorem witness_AccessRefusedExactlyOutside :
    NextMove (sends (holding 1#64) (.read 0x78 64)) (.read 0x78 64) (holding 1#64) ∧
    NextMove (sends (holding 1#64) (.write 0x80 64 0#64)) (.write 0x80 64 0#64) (holding 1#64) :=
  ⟨sends_nextMove _ _, sends_nextMove _ _⟩

/-- A refused access, and the last access inside the window. -/
theorem witness_StepNeverFaults :
    step (sends (holding 1#64) (.read 0x80 64)) = .refused (.outsideWindow 0x80) ∧
    NextMove (sends (holding 1#64) (.read 0x80 64)) (.read 0x80 64) (holding 1#64) ∧
    NextMove (sends (holding 1#64) (.write 0x78 64 0#64)) (.write 0x78 64 0#64) (holding 1#64) :=
  ⟨rfl, sends_nextMove _ _, sends_nextMove _ _⟩

/-- A step of a negative SQRT's completion from a state with SINF set. -/
theorem witness_StepKeepsAtMostOnePathFlag :
    AtMostOnePathFlag (statusIs (flying (.sqrt 7 0) 0xC010000000000000#64 0#64) 0x20#64).status.path ∧
    (nextOf (step (statusIs (flying (.sqrt 7 0) 0xC010000000000000#64 0#64) 0x20#64))).map State.statusWord =
      some 0x12#64 := by
  simp only [AtMostOnePathFlag]
  decide

theorem witness_DomSetOnlyByNegativeSqrt :
    (flying (.sqrt 7 0) 0xC010000000000000#64 0#64).status.dom = false ∧
    (nextOf (step (flying (.sqrt 7 0) 0xC010000000000000#64 0#64))).map (fun t => t.status.dom) = some true := by
  decide

/-- By a write of its bit, and by a reset. -/
theorem witness_StickyClearedOnlyByHost :
    (statusIs (holding 1#64) 0x0E#64).statusWord.getLsbD 2 = true ∧
    (nextOf (step (sends (statusIs (holding 1#64) 0x0E#64) (.write 0x48 64 0x04#64)))).map
      (fun t => t.statusWord.getLsbD 2) = some false ∧
    (nextOf (step (sends (statusIs (holding 1#64) 0x0E#64) .reset))).map
      (fun t => t.statusWord.getLsbD 3) = some false := by decide

/-- ILL by an illegal value at an idle block, OVR by a write of CMD while BUSY. -/
theorem witness_InterfaceErrorsRaisedOnlyByWrites :
    (nextOf (step (sends (holding 1#64) (.write 0x40 64 7#64)))).map (fun t => t.status.ill) = some true ∧
    (nextOf (step (sends (flying .nop 0#64 0#64) (.write 0x40 64 7#64)))).map (fun t => t.status.ovr) = some true ∧
    NextMove (sends (flying .nop 0#64 0#64) (.write 0x38 64 7#64)) (.write 0x38 64 7#64) (flying .nop 0#64 0#64) ∧
    (sends (flying .nop 0#64 0#64) (.write 0x38 64 7#64)).busy = true :=
  ⟨by decide, by decide, sends_nextMove_flying _ _ _ _, rfl⟩

/-- By a completion, and by the host. -/
theorem witness_RegisterChangesOnlyByItsWriters :
    (nextOf (step (flying (.exte 7 0) 0#64 0#64))).map (fun t => t.reg 7 != (flying (.exte 7 0) 0#64 0#64).reg 7) =
      some true ∧
    (nextOf (step (sends (holding 1#64) (.write 0x38 64 9#64)))).map (fun t => t.reg 7 != (holding 1#64).reg 7) =
      some true := by decide

theorem witness_WrittenUntilReset :
    (∃ t, step (flying (.exte 7 0) 0#64 0#64) = .next t) ∧ Written (flying (.exte 7 0) 0#64 0#64) 3 ∧
    (¬ ∃ u, NextMove (flying (.exte 7 0) 0#64 0#64) .reset u) :=
  ⟨⟨_, rfl⟩, by simp only [Written]; decide, fun ⟨_, _, _, h, _⟩ => by cases h⟩

/-- A host access that leaves it in flight, its completion, and a reset. -/
theorem witness_CommandInFlightIsFixed :
    (∃ t, step (sends (flying .nop 0#64 0#64) (.write 0x40 64 7#64)) = .next t) ∧
    (∃ t, step (flying .nop 0#64 0#64) = .next t) ∧ (flying .nop 0#64 0#64).inflight = some ⟨.nop, 0#64, 0#64⟩ ∧
    NextMove (sends (flying .nop 0#64 0#64) .reset) .reset (flying .nop 0#64 0#64) ∧
    (∃ t, step (sends (flying .nop 0#64 0#64) .reset) = .next t ∧ CommandEnds (sends (flying .nop 0#64 0#64) .reset) t) :=
  ⟨⟨_, rfl⟩, ⟨_, rfl⟩, rfl, sends_nextMove_flying _ _ _ _, ⟨_, rfl, rfl, rfl, rfl⟩⟩

theorem witness_PathFlagsAtReset :
    NextMove (sends (flying (.sqrt 1 0) 2#64 0#64) .reset) .reset (flying (.sqrt 1 0) 2#64 0#64) ∧
    ∃ t, step (sends (flying (.sqrt 1 0) 2#64 0#64) .reset) = .next t :=
  ⟨sends_nextMove_flying _ _ _ _, ⟨_, rfl⟩⟩

/-- A read; and a register write twice while BUSY, where neither is ordered after the completion. -/
theorem witness_ReadsHaveNoSideEffect :
    (NextMove (sends (holding 1#64) (.read 0x48 64)) (.read 0x48 64) (holding 1#64) ∧
      ∃ t, step (sends (holding 1#64) (.read 0x48 64)) = .next t) ∧
    (∃ i : RegIx, 0x38 = 8 * i.val) ∧ ((flying .nop 0#64 0#64).busy = true → false = false ∧ false = false) :=
  ⟨⟨sends_nextMove _ _, ⟨_, rfl⟩⟩, ⟨7, rfl⟩, fun _ => ⟨rfl, rfl⟩⟩

theorem witness_RaceOnDomHasBothOutcomes :
    (flying (.sqrt 7 0) 0xC010000000000000#64 0#64).inflight = some ⟨.sqrt 7 0, 0xC010000000000000#64, 0#64⟩ ∧
    ltZero 0xC010000000000000#64 = true ∧ (0x2#64).getLsbD 1 = true := by decide

theorem witness_BusyWriteRaceHasTwoOutcomes :
    (flying (.sqrt 1 0) 0x4010000000000000#64 0#64).inflight = some ⟨.sqrt 1 0, 0x4010000000000000#64, 0#64⟩ ∧
    dest (.sqrt 1 0) = some 1 ∧ (1 : RegIx) ≠ 0 := by decide

/-- A command in flight with one access pending, and with one reset pending. -/
theorem witness_CommandInFlightCompletes :
    (sends (flying .nop 0#64 0#64) (.write 0x48 64 0#64)).inflight = some ⟨.nop, 0#64, 0#64⟩ ∧
    AccessesOnly (sends (flying .nop 0#64 0#64) (.write 0x48 64 0#64)) ∧
    Served (sends (flying .nop 0#64 0#64) .reset) := by
  simp [sends, flying, AccessesOnly, Served]
  decide

/-- A strict step that draws: a read of the destination in flight. -/
theorem witness_StrictStepDrawsOnlyOpenReads :
    (nextOf (strictStep (sends (flying (.exts 7 0) 2#64 0#64) (.read 0x38 64)))).map State.draws = some 1 := by decide

end Sys2Proof.Tests
end

section
/-! SUPPORT. Proofs of the statements on spec/10_state.md R36 and R37: what a completion depends on and changes, and what
a reset leaves. -/

namespace Sys2Proof.Machine

variable {s t : State} {i : Instr} {f : InFlight}

/-! ### Reset (R37) -/

/-- R37's three facts follow from the three fields that a reset sets. -/
theorem emptied_of_reset_fields (hs : s.status = .clear) (hi : s.inflight = none)
    (hw : s.written = .replicate 8 false) :
    s.statusWord = 0#64 ∧ s.inflight = none ∧ ∀ r, s.isWritten r = false := by
  refine ⟨?_, hi, fun r => ?_⟩
  · rw [State.statusWord, State.busy, hs, hi]; decide
  · simp [State.isWritten, hw]

/-- Settles O6: `State.reset` and `resetBlock` set the same three fields, and a reset move is `resetBlock`. -/
theorem resetEmptiesTheBlock : Obligations.ResetEmptiesTheBlock :=
  ⟨emptied_of_reset_fields rfl rfl rfl, fun _ u h =>
    ⟨u.resetBlock, step_of_nextMove h,
      emptied_of_reset_fields (resetBlock_status u) (resetBlock_inflight u) (resetBlock_written u)⟩⟩

/-! ### What a completion depends on (R36) -/

/-- `EXEC(op, a, b)` with `op` the opcode number alone (R36, R53): the result and the path fields. NOP has no result, and
no command has a number without a row; the value given there is never written. -/
def execOf (opc : BitVec 6) (a b : Word) : Word × Path :=
  match opc.toNat with
  | 0x01 => sqrtRule a
  | 0x02 => (rseedValue a, .clear)
  | 0x03 => (restValue a, ⟨false, seedInfinite a, seedClamped a⟩)
  | 0x04 => (nrstepValue a b, .clear)
  | 0x05 => (nr4Value a b, .clear)
  | 0x06 => (nrmulValue a b, .clear)
  | 0x08 => (fclassValue a, .clear)
  | 0x09 => (extsValue a, .clear)
  | 0x0A => (exteValue a, .clear)
  | 0x0B => (extmValue a, .clear)
  | 0x0D => (inssValue a b, .clear)
  | 0x0E => (inseValue a b, .clear)
  | 0x0F => (insmValue a b, .clear)
  | _    => (0#64, .clear)

/-- The registers a command names enter its answer as the place of the result and nowhere else. -/
theorem answerOf_eq_execOf (i : Instr) (a b : Word) :
    answerOf i a b = ⟨(dest i).map (·, (execOf i.opc a b).1), (execOf i.opc a b).2⟩ := by
  cases i <;> rfl

/-- The completion of `i`, said once, with what comes from the opcode apart from what comes from the register fields. -/
theorem completion_eq (hf : s.inflight = some f) (he : exec i s = .next t) :
    t = s.complete ⟨(dest i).map (·, (execOf i.opc f.a f.b).1), (execOf i.opc f.a f.b).2⟩ := by
  rw [exec_inFlight i hf, answerOf_eq_execOf] at he
  exact (Host.Outcome.next.inj he).symm

theorem completion_path (hf : s.inflight = some f) (he : exec i s = .next t) :
    t.status.path = (execOf i.opc f.a f.b).2 := by
  rw [completion_eq hf he, complete_status, status_complete_eq]

theorem completion_reg_dest {rd : RegIx} (hf : s.inflight = some f) (he : exec i s = .next t)
    (hd : dest i = some rd) : t.reg rd = (execOf i.opc f.a f.b).1 := by
  simp [completion_eq hf he, complete_reg, hd]

/-! ### What a completion changes (R36) -/

theorem completion_other_reg {r : RegIx} (hf : s.inflight = some f) (he : exec i s = .next t)
    (hd : dest i ≠ some r) : t.reg r = s.reg r ∧ t.isWritten r = s.isWritten r := by
  rw [completion_eq hf he, complete_reg, complete_isWritten]
  cases h : dest i with
  | none => exact ⟨rfl, rfl⟩
  | some rd =>
    have hr : r ≠ rd := fun e => hd (e ▸ h)
    exact ⟨if_neg hr, if_neg hr⟩

theorem complete_eq (s : State) (ans : Answer) :
    s.complete ans = { s with
      regs := (s.complete ans).regs, written := (s.complete ans).written, inflight := none
      status := { s.status with dom := (s.complete ans).status.dom, path := (s.complete ans).status.path } } := by
  rw [complete_status, status_complete_eq]
  rcases ans with ⟨_ | ⟨rd, v⟩, p⟩ <;> simp [State.complete, State.writeResult, status_complete_eq]

/-- Settles O21: both completions are `execOf` of one opcode on one pair of operands; the frame is `complete_eq`. -/
theorem completionIsPure : Obligations.CompletionIsPure := by
  intro i j f g s₁ s₂ t₁ t₂ hop ha hb hf hg hi hj
  refine ⟨?_, fun rd rd' hd hd' => ?_, fun r => completion_other_reg hf hi, ?_⟩
  · rw [completion_path hf hi, completion_path hg hj, hop, ha, hb]
  · rw [completion_reg_dest hf hi hd, completion_reg_dest hg hj hd', hop, ha, hb]
  · rw [completion_eq hf hi]
    exact complete_eq s₁ _

end Sys2Proof.Machine
end

section
/-! SUPPORT. What the host port does, access by access: the map of the window (spec/20_memory.md R42), the step that a
host read or write makes, and the STATUS word bit by bit (spec/10_state.md R23, R31). -/

namespace Sys2Proof

open Sys2Proof.Machine

/-! ### What the host sees does not depend on its pending moves -/

variable {s u : State} {m : HostMove}

theorem NextMove.busy (h : NextMove s m u) : u.busy = s.busy := by rw [h.eq]; rfl
theorem NextMove.statusWord (h : NextMove s m u) : u.statusWord = s.statusWord := by rw [h.eq]; rfl
theorem NextMove.destInFlight (h : NextMove s m u) : u.destInFlight = s.destInFlight := by rw [h.eq]; rfl

end Sys2Proof

namespace Sys2Proof.Machine

variable {s t u : State} {i : RegIx} {off bits : Nat} {v : Word}

/-! ### Which accesses have a meaning (R41) -/

theorem admissible_iff : admissible off bits = true ↔ bits = 64 ∧ off % 8 = 0 ∧ off < 0x80 := by
  simp [admissible, and_assoc]

/-- Where the access itself answers a next state, the guard refuses exactly outside the specification. -/
theorem guarded_refused_iff {access : State → Host.Outcome State Fault Refusal} (h : ∃ t, access s = .next t) :
    (∃ r, guarded off bits access s = .refused r) ↔ ¬ admissible off bits = true := by
  obtain ⟨t, ht⟩ := h
  rw [← accessRefusal_eq_none_iff]
  cases hr : accessRefusal off bits <;> simp [guarded, hr, ht]

theorem access_of_guarded_next {access : State → Host.Outcome State Fault Refusal}
    (h : guarded off bits access s = .next t) : access s = .next t := by
  cases hr : accessRefusal off bits with
  | none => simpa [guarded, hr] using h
  | some r => simp [guarded, hr] at h

theorem hostWrite_next (off : Nat) (v : Word) (s : State) : ∃ t, hostWrite off v s = .next t := by
  rcases hostWrite_cases off v s with
    ⟨_, _, h⟩ | ⟨_, _, h⟩ | ⟨_, _, h⟩ | ⟨_, _, _, h⟩ | ⟨_, _, _, _, h⟩ | ⟨_, h⟩ | ⟨_, _, h⟩ <;> exact ⟨_, h⟩

/-! ### The map of the window (R42) -/

@[simp] theorem regAt_offset (i : RegIx) : regAt (8 * i.val) = i := by
  apply Fin.ext
  simp only [regAt, Fin.ofNat]
  omega

theorem offset_lt_cmdOffset (i : RegIx) : 8 * i.val < cmdOffset := by
  simp only [cmdOffset]
  omega

theorem admissible_reg (i : RegIx) : admissible (8 * i.val) 64 = true :=
  admissible_iff.2 ⟨rfl, by omega, by omega⟩

theorem readAt_reg (s : State) (i : RegIx) : s.readAt (8 * i.val) = s.hostReadReg i := by
  simp [State.readAt, offset_lt_cmdOffset]

theorem readAt_cmd (s : State) : s.readAt 0x40 = (0#64, s) := rfl

theorem readAt_status (s : State) : s.readAt 0x48 = (s.statusWord, s) := rfl

theorem hostWrite_reg (i : RegIx) (v : Word) (s : State) : hostWrite (8 * i.val) v s = hostWriteReg i v s := by
  simp [hostWrite, offset_lt_cmdOffset]

theorem hostWrite_cmd (v : Word) (s : State) : hostWrite 0x40 v s = hostWriteCmd v s := rfl

theorem hostWriteCmd_of_error {e : DecodeError} (hi : s.inflight = none) (hd : decode v = .error e) :
    hostWriteCmd v s = .next (s.raise .illegalCommand) := by
  simp [hostWriteCmd, not_busy_of_idle hi, hd]

theorem hostWriteCmd_of_ok {c : Instr} (hi : s.inflight = none) (hd : decode v = .ok c) :
    hostWriteCmd v s = exec c s := by
  simp [hostWriteCmd, not_busy_of_idle hi, hd]

theorem hostWrite_status (v : Word) (s : State) :
    hostWrite 0x48 v s = .next { s with status := s.status.clearOnes v } := rfl

/-- Beyond STATUS a read is a draw and a write does nothing. -/
theorem reserved_access (h : statusOffset < off) :
    s.readAt off = s.draw ∧ hostWrite off v s = .next s := by
  simp only [statusOffset] at h
  have h1 : ¬ off < cmdOffset := by simp only [cmdOffset]; omega
  have h2 : off ≠ cmdOffset := by simp only [cmdOffset]; omega
  have h3 : off ≠ statusOffset := by simp only [statusOffset]; omega
  simp [State.readAt, hostWrite, h1, h2, h3]

/-! ### The step of a host access -/

theorem step_of_read (h : NextMove s (.read off 64) u) (ha : admissible off 64 = true) :
    step s = .next ((u.readAt off).2.reply (u.readAt off).1) := by
  rw [step_of_nextMove h, hostMove, guarded_of_admissible ha, hostRead]

theorem step_of_write (h : NextMove s (.write off 64 v) u) (ha : admissible off 64 = true) :
    step s = hostWrite off v u := by
  rw [step_of_nextMove h, hostMove, guarded_of_admissible ha]

/-- A read of any width at any offset, if it is not refused, replies and may draw. -/
theorem next_of_read (h : NextMove s (.read off bits) u) (hs : step s = .next t) :
    t = (u.readAt off).2.reply (u.readAt off).1 := by
  rw [step_of_nextMove h, hostMove] at hs
  exact (Host.Outcome.next.inj (access_of_guarded_next hs)).symm

/-- The one register that a host read of `Ri` reads, and none where its value is a draw (R43). -/
theorem nextReads_of_regRead (h : NextMove s (.read (8 * i.val) 64) u) :
    s.nextReads = if s.destInFlight = some i then [] else [i] := by
  have hb := h.blockNext
  obtain ⟨late, rest, hh, -, -⟩ := h
  by_cases hd : s.destInFlight = some i <;>
    simp [State.nextReads, hb, hh, admissible_reg, offset_lt_cmdOffset, hd]

/-! ### STATUS, bit by bit -/

/-- The STATUS word by bit position (R23, R31). -/
theorem statusWord_getLsbD (s : State) (k : Nat) : s.statusWord.getLsbD k =
    (if k = 0 then s.busy
     else if k = 1 then s.status.dom
     else if k = 2 then s.status.ill
     else if k = 3 then s.status.ovr
     else if k = 4 then s.status.path.dlast
     else if k = 5 then s.status.path.sinf
     else if k = 6 then s.status.path.sclamp
     else false) := by
  simp only [State.statusWord, Status.word, BitVec.getLsbD_append]
  rcases k with _ | _ | _ | _ | _ | _ | _ | k <;> simp

end Sys2Proof.Machine
end

section
/-! SUPPORT. Legal values and commands: what the decoder accepts is an encoding, and the values of R67 are what it
accepts (spec/30_encoding.md R61, R66, R67). -/

namespace Sys2Proof

variable {i : Instr} {w : Word32} {v : Word} {r : OpcodeRow}

/-! ### An accepted value is the command's encoding -/

/-- The command that a one-source arm of the decoder reads has the word's fields. -/
theorem encode_of_oneSource {c : RegIx → RegIx → Instr} (h : oneSource c w = .ok i)
    (hc : ∀ rd a, encode (c rd a) = commandWord (c rd a).opc rd a 0)
    (ho : ∀ rd a, (c rd a).opc.toNat = (fieldOpc w).toNat) :
    encode i = commandWord (fieldOpc w) (fieldRd w) (fieldRs1 w) (fieldRs2 w) := by
  unfold oneSource at h
  split_ifs at h with h2
  cases h
  rw [hc, BitVec.eq_of_toNat_eq (ho _ _), h2]

theorem encode_of_twoSources {c : RegIx → RegIx → RegIx → Instr} (h : twoSources c w = .ok i)
    (hc : ∀ rd a b, encode (c rd a b) = commandWord (c rd a b).opc rd a b)
    (ho : ∀ rd a b, (c rd a b).opc.toNat = (fieldOpc w).toNat) :
    encode i = commandWord (fieldOpc w) (fieldRd w) (fieldRs1 w) (fieldRs2 w) := by
  cases h
  rw [hc, BitVec.eq_of_toNat_eq (ho _ _ _)]

theorem encode_of_noOperands {c : Instr} (h : noOperands c w = .ok i) (hc : encode c = commandWord c.opc 0 0 0)
    (ho : c.opc.toNat = (fieldOpc w).toNat) :
    encode i = commandWord (fieldOpc w) (fieldRd w) (fieldRs1 w) (fieldRs2 w) := by
  unfold noOperands at h
  split_ifs at h with hz
  obtain ⟨hd, h1, h2⟩ := hz
  cases h
  rw [hc, BitVec.eq_of_toNat_eq ho, hd, h1, h2]

/-- The decoded command's word has the fields of the word it was decoded from. -/
theorem encode_of_decodeOpcode (h : decodeOpcode w = .ok i) :
    encode i = commandWord (fieldOpc w) (fieldRd w) (fieldRs1 w) (fieldRs2 w) := by
  unfold decodeOpcode at h
  split at h
  case h_1 ho => exact encode_of_noOperands h rfl ho.symm
  case h_2 ho | h_3 ho | h_4 ho | h_8 ho | h_9 ho | h_10 ho | h_11 ho =>
    exact encode_of_oneSource h (fun _ _ => rfl) (fun _ _ => ho.symm)
  case h_5 ho | h_6 ho | h_7 ho | h_12 ho | h_13 ho | h_14 ho =>
    exact encode_of_twoSources h (fun _ _ _ => rfl) (fun _ _ _ => ho.symm)
  case h_15 => cases h

/-- A value that the decoder accepts presents the command it is decoded to. -/
theorem eq_encodeValue_of_decode (h : decode v = .ok i) : v = encodeValue i := by
  unfold decode at h
  split_ifs at h with hu hr
  rw [encodeValue, encode_of_decodeOpcode h, ← eq_commandWord_of_reservedClear _ (by simpa using hr)]
  exact eq_setWidth_of_upper_zero v (not_not.1 hu)

theorem legal_encodeValue (i : Instr) : legal (encodeValue i) = true := by
  cases i with
  | nop => exact Laws.EncodeLegal.nop
  | sqrt rd a => exact Laws.EncodeLegal.sqrt rd a
  | rseed rd a => exact Laws.EncodeLegal.rseed rd a
  | rest rd a => exact Laws.EncodeLegal.rest rd a
  | nrstep rd a b => exact Laws.EncodeLegal.nrstep rd a b
  | nr4 rd a b => exact Laws.EncodeLegal.nr4 rd a b
  | nrmul rd a b => exact Laws.EncodeLegal.nrmul rd a b
  | fclass rd a => exact Laws.EncodeLegal.fclass rd a
  | exts rd a => exact Laws.EncodeLegal.exts rd a
  | exte rd a => exact Laws.EncodeLegal.exte rd a
  | extm rd a => exact Laws.EncodeLegal.extm rd a
  | inss rd a b => exact Laws.EncodeLegal.inss rd a b
  | inse rd a b => exact Laws.EncodeLegal.inse rd a b
  | insm rd a b => exact Laws.EncodeLegal.insm rd a b

/-! ### The decoder accepts every legal value -/

/-- A field that every mask of R66 covers is that of the selected row. -/
theorem field_of_selects (h : r.selects w = true) (start n : Nat)
    (hm : r.mask.extractLsb' start n = BitVec.allOnes n) : w.extractLsb' start n = r.pattern.extractLsb' start n :=
  extract_of_mask (beq_iff_eq.1 h) start n hm

/-- Every row's mask covers the reserved bits, which are 0 in its pattern, and OPC (R66). -/
theorem row_covers_reserved_and_opc : ∀ r ∈ opcodeMap, reservedClear r.pattern = true ∧
    r.mask.extractLsb' 6 2 = BitVec.allOnes 2 ∧ r.mask.extractLsb' 11 1 = BitVec.allOnes 1 ∧
    r.mask.extractLsb' 15 1 = BitVec.allOnes 1 ∧ r.mask.extractLsb' 19 13 = BitVec.allOnes 13 ∧
    r.mask.extractLsb' 0 6 = BitVec.allOnes 6 := by decide

theorem reservedClear_of_selects (hr : r ∈ opcodeMap) (h : r.selects w = true) : reservedClear w = true := by
  obtain ⟨hp, h1, h2, h3, h4, -⟩ := row_covers_reserved_and_opc r hr
  rw [reservedClear, field_of_selects h _ _ h1, field_of_selects h _ _ h2, field_of_selects h _ _ h3,
    field_of_selects h _ _ h4]
  exact hp

theorem fieldOpc_of_selects (hr : r ∈ opcodeMap) (h : r.selects w = true) : fieldOpc w = fieldOpc r.pattern := by
  obtain ⟨-, -, -, -, -, ho⟩ := row_covers_reserved_and_opc r hr
  exact field_of_selects h _ _ ho

theorem fieldRs2_of_selects (h : r.selects w = true) (hm : r.mask.extractLsb' 16 3 = BitVec.allOnes 3) :
    fieldRs2 w = fieldRs2 r.pattern := by
  rw [fieldRs2, field_of_selects h _ _ hm, fieldRs2]

theorem oneSource_ok {c : RegIx → RegIx → Instr} (h : fieldRs2 w = 0) : ∃ i, oneSource c w = .ok i :=
  ⟨_, if_pos h⟩

theorem twoSources_ok {c : RegIx → RegIx → RegIx → Instr} : ∃ i, twoSources c w = .ok i := ⟨_, rfl⟩

/-- A word that selects a row is read by the row's arm of the decoder; the rows stand in the order of R66. -/
theorem decodeOpcode_of_selects (hr : r ∈ opcodeMap) (h : r.selects w = true) : ∃ i, decodeOpcode w = .ok i := by
  have ho := fieldOpc_of_selects hr h
  have h2 := fieldRs2_of_selects h
  unfold decodeOpcode
  rw [ho]
  simp only [opcodeMap, List.mem_cons, List.not_mem_nil, or_false] at hr
  rcases hr with rfl | rfl | rfl | rfl | rfl | rfl | rfl | rfl | rfl | rfl | rfl | rfl | rfl | rfl
  case inl =>
    obtain rfl : w = 0#32 := by
      rw [← BitVec.and_allOnes (x := w)]
      exact beq_iff_eq.1 h
    exact ⟨.nop, rfl⟩
  · exact oneSource_ok (h2 rfl)
  · exact oneSource_ok (h2 rfl)
  · exact oneSource_ok (h2 rfl)
  · exact twoSources_ok
  · exact twoSources_ok
  · exact twoSources_ok
  · exact oneSource_ok (h2 rfl)
  · exact oneSource_ok (h2 rfl)
  · exact oneSource_ok (h2 rfl)
  · exact oneSource_ok (h2 rfl)
  · exact twoSources_ok
  · exact twoSources_ok
  · exact twoSources_ok

theorem decode_of_legal (h : legal v = true) : ∃ i, decode v = .ok i := by
  simp only [legal, Bool.and_eq_true, beq_iff_eq, List.any_eq_true] at h
  obtain ⟨hu, r, hr, hs⟩ := h
  obtain ⟨i, hi⟩ := decodeOpcode_of_selects hr hs
  exact ⟨i, by simp [decode, hu, reservedClear_of_selects hr hs, hi]⟩

/-- The legal values are those that the decoder reads a command from (R67). -/
theorem legal_iff_decode : legal v = true ↔ ∃ i, decode v = .ok i :=
  ⟨decode_of_legal, fun ⟨i, hi⟩ => eq_encodeValue_of_decode hi ▸ legal_encodeValue i⟩

theorem decode_error_of_illegal (h : legal v = false) : ∃ e, decode v = .error e := by
  cases hd : decode v with
  | error e => exact ⟨e, rfl⟩
  | ok i => simp [legal_iff_decode.2 ⟨i, hd⟩] at h

end Sys2Proof
end

section
/-! SUPPORT. Proofs of the statements on spec/20_memory.md: the accesses of the host port (R41 to R49, R163) and the
latching of the sources at issue (R52). -/

namespace Sys2Proof.Machine

variable {s t u : State} {i : Instr} {off bits : Nat} {v : Word}

/-! ### Reads (R43, R46, R47) -/

/-- Settles O39: `nextReads` names the register unless it is the destination in flight; the strict step faults on it
exactly where it is unwritten. -/
theorem dataRegisterRead : Obligations.DataRegisterRead := by
  intro s u i h
  have hstep := step_of_read h (admissible_reg i)
  rw [readAt_reg, State.hostReadReg, h.destInFlight] at hstep
  rw [strictStep, nextReads_of_regRead h]
  change _ = if s.destInFlight = some i then _ else _
  by_cases hd : s.destInFlight = some i
  · simp only [hd, if_true, List.find?_nil, hstep]
    rw [← h.draws, ← h.replies]
    rfl
  · cases hw : s.isWritten i with
    | true =>
      have hread := readReg_of_written ((h.isWritten i).trans hw)
      simp [hd, hw, hstep, hread, State.reply, h.reg, h.replies]
    | false => simp [hd, hw]

/-- A step that leaves a command in flight is no completion and no reset, and nothing else writes the path fields. -/
theorem path_of_step_busy (h : step s = .next t) (hb : t.busy = true) : t.status.path = s.status.path := by
  cases stepCase_of_next h with
  | completion f hf _ ht => simp [ht, State.busy] at hb
  | wait _ _ ht => rw [ht]
  | read u _ hm _ ht => rw [ht, ← hm.status]
  | overrun u _ _ hm _ _ ht => rw [ht, ← hm.status]; rfl
  | writeReg u _ _ hm _ ht => rw [ht, ← hm.status]; rfl
  | illegal u _ hm _ _ ht => rw [ht, ← hm.status]; rfl
  | issue u _ i hm _ _ ht => rw [ht, issue_status, hm.status]
  | clearStatus u _ hm ht => rw [ht, ← hm.status]; rfl
  | reserved u _ _ hm _ ht => rw [ht, hm.status]
  | reset u _ ht => simp [ht, State.busy] at hb

/-- Settles O43: the two reads are entries of the map, and `path_of_step_busy` holds the path fields. -/
theorem cmdAndStatusRead : Obligations.CmdAndStatusRead := by
  refine ⟨fun s u => ⟨fun h => ?_, fun h => ?_⟩, fun s k hk => ?_, fun s t => path_of_step_busy⟩
  · rw [step_of_read h rfl, readAt_cmd, State.reply, h.replies]
  · rw [step_of_read h rfl, readAt_status, State.reply, h.replies, h.statusWord]
  · rw [statusWord_getLsbD]
    simp (disch := omega) only [if_neg]

/-! ### Writes (R44, R45, R48) -/

/-- The refusal of a write while BUSY: OVR and nothing else. -/
theorem raise_overrun_eq (h : NextMove s (.write off bits v) u) :
    u.raise .overrun = { u with status := { s.status with ovr := true } } := by
  rw [← h.status]
  rfl

/-- A write of a data register or of CMD while BUSY is refused with Overrun (R44, R45, R163). -/
theorem step_of_busy_write (h : NextMove s (.write off 64 v) u) (ha : admissible off 64 = true) (ho : off ≤ cmdOffset)
    (hb : s.busy = true) : step s = .next { u with status := { s.status with ovr := true } } := by
  have hbu : u.busy = true := h.busy.trans hb
  rw [step_of_write h ha, ← raise_overrun_eq h]
  rcases ho.lt_or_eq with hlt | rfl
  · rw [hostWrite, if_pos hlt, hostWriteReg, if_pos hbu]
  · exact (hostWrite_cmd v u).trans (if_pos hbu)

/-- Settles O42: BUSY refuses first; then `decode` and `legal` agree, and what decodes is the command's encoding. -/
theorem commandWrite : Obligations.CommandWrite := by
  intro s u v h
  refine ⟨step_of_busy_write h rfl le_rfl, fun hi hl => ?_, fun hi hl => ?_⟩
  · obtain ⟨e, he⟩ := decode_error_of_illegal hl
    rw [step_of_write h rfl, hostWrite_cmd, hostWriteCmd_of_error (h.inflight.trans hi) he, ← h.status]
    rfl
  · obtain ⟨i, hd⟩ := decode_of_legal hl
    refine ⟨i, eq_encodeValue_of_decode hd, ?_⟩
    rw [step_of_write h rfl, hostWrite_cmd, hostWriteCmd_of_ok (h.inflight.trans hi) hd]

/-- Settles O44: the write keeps all but STATUS, and bit by bit it is `clearOnes`. -/
theorem statusWrite : Obligations.StatusWrite := by
  intro s u v h
  refine ⟨_, step_of_write h rfl, rfl, fun k => ?_⟩
  rw [statusWord_getLsbD, statusWord_getLsbD]
  rcases k with _ | _ | _ | _ | _ | _ | _ | k <;> simp [h.status, State.busy, h.inflight]

/-- Settles O41: at an idle block the write is `writeReg`; BUSY refuses it as it does a CMD write; `clearOnes` sets no
bit; a read has no way to STATUS. -/
theorem dataRegisterWrite : Obligations.DataRegisterWrite := by
  refine ⟨fun s u i v h => ⟨fun hi => ?_, fun hb => ?_⟩, fun s u v h hb => ?_, fun s u t v h hs ho => ?_,
    fun s u t off bits h hs => ?_⟩
  · refine ⟨u.writeReg i v, ?_, reg_writeReg_same .., isWritten_writeReg_same .., fun r hr => ⟨?_, ?_⟩, rfl⟩
    · rw [step_of_write h (admissible_reg i), hostWrite_reg, hostWriteReg, not_busy_of_idle (h.inflight.trans hi)]
      rfl
    · rw [reg_writeReg, if_neg hr, h.reg]
    · rw [isWritten_writeReg, if_neg hr, h.isWritten]
  · exact step_of_busy_write h (admissible_reg i) (offset_lt_cmdOffset i).le hb
  · exact step_of_busy_write h rfl le_rfl hb
  · rw [step_of_write h rfl, hostWrite_status] at hs
    cases hs
    rw [← h.status]
    exact (Bool.and_eq_true_iff.1 ho).1
  · rw [next_of_read h hs, readAt_state, reply_status, h.status]

/-! ### Reserved offsets, and accesses outside the specification (R41, R49) -/

/-- Settles O45: every reserved offset is admissible and lies beyond STATUS. -/
theorem reservedOffsets : Obligations.ReservedOffsets := by
  intro s u off v hoff
  obtain ⟨ha, ho⟩ : admissible off 64 = true ∧ statusOffset < off := by
    revert off
    decide
  obtain ⟨hread, hwrite⟩ := reserved_access (s := u) (v := v) ho
  refine ⟨fun h => ?_, fun h => (step_of_write h ha).trans hwrite⟩
  rw [step_of_read h ha, hread, ← h.replies, ← h.draws]
  rfl

/-- Settles O46: an access inside the specification answers a next state, so the guard alone refuses. -/
theorem accessRefusedExactlyOutside : Obligations.AccessRefusedExactlyOutside := by
  intro s u off bits v h
  rw [← admissible_iff]
  rcases h with h | h
  · rw [step_of_nextMove h]
    exact guarded_refused_iff ⟨_, rfl⟩
  · rw [step_of_nextMove h]
    exact guarded_refused_iff (hostWrite_next off v u)

/-! ### Issue (R52) -/

/-- With its sources written, an issue draws nothing. -/
theorem issue_of_written (h : SourcesWritten s i) : s.issue i =
    { s with inflight := some ⟨i, ((sources i).1.map s.reg).getD 0#64, ((sources i).2.map s.reg).getD 0#64⟩ } := by
  obtain ⟨h1, h2⟩ := h
  rw [State.issue, latch_of_written h1, latch_of_written h2]

/-- Settles O10: exec at an idle block is the issue, whose operands are the contents of the sources. -/
theorem issueLatchesTheSources : Obligations.IssueLatchesTheSources := by
  intro i s hi hw
  refine ⟨_, _, _, exec_idle i hi, issue_of_written hw, issue_busy s i, fun r hr => ?_, fun r hr => ?_⟩ <;>
    rw [hr] <;> rfl

end Sys2Proof.Machine
end

section
/-! SUPPORT. Proofs of the statements on spec/30_encoding.md: the legal values of R67 by the numbers of their fields. -/

namespace Sys2Proof

variable {w : Word32} {v : Word}

/-! ### What the decoder accepts, field by field (R64, R66) -/

theorem noOperands_ok_iff {c : Instr} :
    (∃ i, noOperands c w = .ok i) ↔ fieldRd w = 0 ∧ fieldRs1 w = 0 ∧ fieldRs2 w = 0 := by
  unfold noOperands
  split_ifs with h <;> simp [h]

theorem oneSource_ok_iff {c : RegIx → RegIx → Instr} : (∃ i, oneSource c w = .ok i) ↔ fieldRs2 w = 0 := by
  unfold oneSource
  split_ifs with h <;> simp [h]

/-- Commands of no operands, of one source and of two sources, each with the register fields it must leave 0. -/
theorem decodeOpcode_ok_iff : (∃ i, decodeOpcode w = .ok i) ↔
    (fieldOpc w).toNat = 0x00 ∧ (fieldRd w = 0 ∧ fieldRs1 w = 0 ∧ fieldRs2 w = 0) ∨
    (fieldOpc w).toNat ∈ [0x01, 0x02, 0x03, 0x08, 0x09, 0x0A, 0x0B] ∧ fieldRs2 w = 0 ∨
    (fieldOpc w).toNat ∈ [0x04, 0x05, 0x06, 0x0D, 0x0E, 0x0F] := by
  unfold decodeOpcode
  split
  case h_1 ho => simp [ho, noOperands_ok_iff]
  case h_2 ho | h_3 ho | h_4 ho | h_8 ho | h_9 ho | h_10 ho | h_11 ho => simp [ho, oneSource_ok_iff]
  case h_5 ho | h_6 ho | h_7 ho | h_12 ho | h_13 ho | h_14 ho => simp [ho, twoSources_ok]
  case h_15 => simp_all

theorem decode_ok_iff : (∃ i, decode v = .ok i) ↔
    (v.extractLsb' 32 32 = 0#32 ∧ reservedClear (v.extractLsb' 0 32) = true) ∧
      ∃ i, decodeOpcode (v.extractLsb' 0 32) = .ok i := by
  unfold decode
  split_ifs with hu hr
  · simp [hu]
  · simp [hr]
  · rw [and_iff_right ⟨not_not.1 hu, by simpa using hr⟩]

/-! ### The fields of the presented word as numbers (R61) -/

/-- A field of the command word, within the 64-bit value that presents the word. -/
theorem toNat_extract_low {start n : Nat} (h : start + n ≤ 32) :
    ((v.extractLsb' 0 32).extractLsb' start n).toNat = v.toNat / 2 ^ start % 2 ^ n := by
  have h32 : 2 ^ 32 = 2 ^ start * 2 ^ (32 - start) := (pow_mul_pow_sub 2 (by omega)).symm
  rw [toNat_extract_eq, toNat_extract_eq, pow_zero, Nat.div_one, h32, Nat.mod_mul_right_div_self,
    Nat.mod_mod_of_dvd _ (Nat.pow_dvd_pow 2 (Nat.le_sub_of_add_le' h))]

theorem fieldOpc_low_toNat : (fieldOpc (v.extractLsb' 0 32)).toNat = v.toNat % 2 ^ 6 := by
  rw [fieldOpc, toNat_extract_low (by decide), pow_zero, Nat.div_one]

theorem regOfBits_low_eq_zero_iff {start : Nat} (h : start + 3 ≤ 32) :
    regOfBits ((v.extractLsb' 0 32).extractLsb' start 3) = 0 ↔ v.toNat / 2 ^ start % 2 ^ 3 = 0 := by
  rw [← toNat_extract_low h]
  exact Fin.ext_iff

/-- The bits that are 0 in every legal value: 63:32 by R60, and 31:19, 15, 11 and 7:6 by R61. -/
theorem reserved_bits_zero_iff :
    (v.extractLsb' 32 32 = 0#32 ∧ reservedClear (v.extractLsb' 0 32) = true) ↔
      v.toNat < 2 ^ 19 ∧ v.toNat / 2 ^ 6 % 4 = 0 ∧ v.toNat / 2 ^ 11 % 2 = 0 ∧ v.toNat / 2 ^ 15 % 2 = 0 := by
  have := v.isLt
  simp only [reservedClear, Bool.and_eq_true, beq_iff_eq, ← BitVec.toNat_inj, toNat_extract_eq,
    BitVec.toNat_ofNat, Nat.zero_mod]
  omega

/-- Where the reserved bits are 0, the register fields that must be 0 leave the value no bit above OPC, or none above
RS1. -/
theorem legal_iff_fields : legal v = true ↔
    v.toNat < 2 ^ 19 ∧ v.toNat / 2 ^ 6 % 4 = 0 ∧ v.toNat / 2 ^ 11 % 2 = 0 ∧ v.toNat / 2 ^ 15 % 2 = 0 ∧
    (v.toNat % 2 ^ 6 = 0x00 ∧ v.toNat / 2 ^ 8 = 0 ∨
     v.toNat % 2 ^ 6 ∈ [0x01, 0x02, 0x03, 0x08, 0x09, 0x0A, 0x0B] ∧ v.toNat / 2 ^ 16 = 0 ∨
     v.toNat % 2 ^ 6 ∈ [0x04, 0x05, 0x06, 0x0D, 0x0E, 0x0F]) := by
  rw [legal_iff_decode, decode_ok_iff, reserved_bits_zero_iff, decodeOpcode_ok_iff, fieldOpc_low_toNat]
  simp (disch := decide) only [fieldRd, fieldRs1, fieldRs2, regOfBits_low_eq_zero_iff, and_assoc]
  refine and_congr_right fun h19 => and_congr_right fun h6 => and_congr_right fun h11 => and_congr_right fun h15 => ?_
  have hops : v.toNat / 2 ^ 8 % 2 ^ 3 = 0 ∧ v.toNat / 2 ^ 12 % 2 ^ 3 = 0 ∧ v.toNat / 2 ^ 16 % 2 ^ 3 = 0 ↔
      v.toNat / 2 ^ 8 = 0 := by omega
  have hrs2 : v.toNat / 2 ^ 16 % 2 ^ 3 = 0 ↔ v.toNat / 2 ^ 16 = 0 := by omega
  rw [hops, hrs2]

/-- Settles O2: the numbers of the fields are those the decoder tests, the decoder accepts the legal values, and the
illegal write at an idle block is a clause of `commandWrite`. -/
theorem legalExactlyByFields : Obligations.LegalExactlyByFields :=
  ⟨fun _ => legal_iff_fields, fun _ => legal_iff_decode, fun s u v h =>
    have ⟨_, hillegal, _⟩ := Machine.commandWrite s u v h
    hillegal⟩

end Sys2Proof
end

section
/-! SUPPORT. Proofs of the statements on spec/40_fp_primitives.md R82, R91 and R92: the classification predicates by the
fields of a pattern as numbers, which pairs of classes exclude each other, the zero test and the ordered test b < 0. -/

namespace Sys2Proof.Machine

variable {b : Word} {f : Word32}

/-! ### The fields of a binary32 pattern (R81) -/

theorem sign32_eq (f : Word32) : sign32 f = decide (signNat32 f = 1) := by
  have := f.isLt
  rw [sign32, BitVec.getLsbD, Nat.testBit_eq_decide_div_mod_eq, decide_eq_decide, signNat32]
  omega

theorem signNat32_eq_zero_or_one (f : Word32) : signNat32 f = 0 ∨ signNat32 f = 1 := by
  have := f.isLt
  simp only [signNat32]
  omega

theorem exp32_toNat (f : Word32) : (exp32 f).toNat = expNat32 f := toNat_extract_eq 23 8 f

theorem frac32_toNat (f : Word32) : (frac32 f).toNat = fracNat32 f := by
  rw [frac32, toNat_extract_eq, pow_zero, Nat.div_one, fracNat32]

/-! ### A field that holds a given number -/

theorem expNat_lt (b : Word) : expNat b < 2 ^ 11 := Nat.mod_lt _ (Nat.two_pow_pos 11)

theorem fracNat_lt (b : Word) : fracNat b < 2 ^ 52 := Nat.mod_lt _ (Nat.two_pow_pos 52)

theorem exp64_eq_iff {k : Nat} (hk : k < 2 ^ 11) : exp64 b = BitVec.ofNat 11 k ↔ expNat b = k := by
  rw [← BitVec.toNat_inj, exp64_toNat, BitVec.toNat_ofNat, Nat.mod_eq_of_lt hk]

theorem frac64_eq_zero_iff : frac64 b = 0#52 ↔ fracNat b = 0 := by
  rw [← BitVec.toNat_inj, frac64_toNat, BitVec.toNat_ofNat, Nat.zero_mod]

theorem exp32_eq_iff {k : Nat} (hk : k < 2 ^ 8) : exp32 f = BitVec.ofNat 8 k ↔ expNat32 f = k := by
  rw [← BitVec.toNat_inj, exp32_toNat, BitVec.toNat_ofNat, Nat.mod_eq_of_lt hk]

theorem frac32_eq_zero_iff : frac32 f = 0#23 ↔ fracNat32 f = 0 := by
  rw [← BitVec.toNat_inj, frac32_toNat, BitVec.toNat_ofNat, Nat.zero_mod]

/-! ### The classes by the fields as numbers (R82) -/

theorem isZero_iff : isZero b = true ↔ expNat b = 0 ∧ fracNat b = 0 := by
  rw [isZero, Bool.and_eq_true, beq_iff_eq, beq_iff_eq, exp64_eq_iff (by decide), frac64_eq_zero_iff]

theorem isSubnormal_iff : isSubnormal b = true ↔ expNat b = 0 ∧ fracNat b ≠ 0 := by
  rw [isSubnormal, Bool.and_eq_true, beq_iff_eq, bne_iff_ne, Ne, exp64_eq_iff (by decide), frac64_eq_zero_iff]

/-- The exponent field has eleven bits, so one that is neither 0 nor 0x7FF lies between. -/
theorem isNormal_iff : isNormal b = true ↔ 1 ≤ expNat b ∧ expNat b ≤ 0x7FE := by
  have hexp := expNat_lt b
  rw [isNormal, Bool.and_eq_true, bne_iff_ne, bne_iff_ne, Ne, Ne, exp64_eq_iff (by decide), exp64_eq_iff (by decide)]
  omega

theorem isInf_iff : isInf b = true ↔ expNat b = 0x7FF ∧ fracNat b = 0 := by
  rw [isInf, Bool.and_eq_true, beq_iff_eq, beq_iff_eq, exp64_eq_iff (by decide), frac64_eq_zero_iff]

theorem isNan_iff : isNan b = true ↔ expNat b = 0x7FF ∧ fracNat b ≠ 0 := by
  rw [isNan, Bool.and_eq_true, beq_iff_eq, bne_iff_ne, Ne, exp64_eq_iff (by decide), frac64_eq_zero_iff]

theorem isZero32_iff : isZero32 f = true ↔ expNat32 f = 0 ∧ fracNat32 f = 0 := by
  rw [isZero32, Bool.and_eq_true, beq_iff_eq, beq_iff_eq, exp32_eq_iff (by decide), frac32_eq_zero_iff]

theorem isInf32_iff : isInf32 f = true ↔ expNat32 f = 0xFF ∧ fracNat32 f = 0 := by
  rw [isInf32, Bool.and_eq_true, beq_iff_eq, beq_iff_eq, exp32_eq_iff (by decide), frac32_eq_zero_iff]

theorem isNan32_iff : isNan32 f = true ↔ expNat32 f = 0xFF ∧ fracNat32 f ≠ 0 := by
  rw [isNan32, Bool.and_eq_true, beq_iff_eq, bne_iff_ne, Ne, exp32_eq_iff (by decide), frac32_eq_zero_iff]

/-! ### Exactly one class (R82) -/

/-- The exponent field is 0, 0x7FF or another, and the mantissa divides each of the first two in two. -/
theorem one_class (b : Word) :
    ([isZero b, isSubnormal b, isNormal b, isInf b, isNan b].filter id).length = 1 := by
  unfold isZero isSubnormal isNormal isInf isNan
  by_cases hsub : exp64 b = 0#11
  · by_cases hfrac : frac64 b = 0#52 <;> simp [hsub, hfrac]
  · by_cases htop : exp64 b = 0x7FF#11
    · by_cases hfrac : frac64 b = 0#52 <;> simp [htop, hfrac]
    · simp [hsub, htop]

/-- Settles O24: each predicate by the numbers of its fields, and one class by the values of the exponent field. -/
theorem exactlyOneClass : Obligations.ExactlyOneClass :=
  ⟨fun b => ⟨isZero_iff, isSubnormal_iff, isNormal_iff, isInf_iff, isNan_iff, one_class b⟩,
   fun _ => ⟨isZero32_iff, isInf32_iff, isNan32_iff⟩⟩

/-! ### Classes that exclude each other -/

theorem isNan_of_isInf (h : isInf b = true) : isNan b = false := by
  rw [isInf_iff] at h; rw [Bool.eq_false_iff, Ne, isNan_iff]; omega

theorem isNan_of_isZero (h : isZero b = true) : isNan b = false := by
  rw [isZero_iff] at h; rw [Bool.eq_false_iff, Ne, isNan_iff]; omega

theorem isInf_of_isZero (h : isZero b = true) : isInf b = false := by
  rw [isZero_iff] at h; rw [Bool.eq_false_iff, Ne, isInf_iff]; omega

theorem isNan32_of_isInf32 (h : isInf32 f = true) : isNan32 f = false := by
  rw [isInf32_iff] at h; rw [Bool.eq_false_iff, Ne, isNan32_iff]; omega

theorem isNan32_of_isZero32 (h : isZero32 f = true) : isNan32 f = false := by
  rw [isZero32_iff] at h; rw [Bool.eq_false_iff, Ne, isNan32_iff]; omega

theorem isInf32_of_isZero32 (h : isZero32 f = true) : isInf32 f = false := by
  rw [isZero32_iff] at h; rw [Bool.eq_false_iff, Ne, isInf32_iff]; omega

theorem isZero32_of_isInf32 (h : isInf32 f = true) : isZero32 f = false :=
  Bool.eq_false_iff.2 fun h0 => Bool.eq_false_iff.1 (isInf32_of_isZero32 h0) h

/-! ### The zero test and the ordered test (R91, R92) -/

/-- Settles O25: with exponent and mantissa 0 the sign alone is left of the pattern. -/
theorem zeroTestHoldsOfTwoPatterns : Obligations.ZeroTestHoldsOfTwoPatterns := by
  intro b
  have hsign := signNat_eq_zero_or_one b
  have hfields := toNat_eq_fields b
  have hexp := expNat_lt b
  have hfrac := fracNat_lt b
  rw [isZero_iff, ← BitVec.toNat_inj, ← BitVec.toNat_inj, BitVec.toNat_ofNat, BitVec.toNat_ofNat]
  omega

theorem ltZero_iff : ltZero b = true ↔
    signNat b = 1 ∧ ¬ (expNat b = 0x7FF ∧ fracNat b ≠ 0) ∧ ¬ (expNat b = 0 ∧ fracNat b = 0) := by
  rw [← isNan_iff, ← isZero_iff, ltZero, sign64_eq]
  simp [and_assoc]

/-- Settles O27: below the sign the pattern of a number is neither 0 nor above that of an infinity. -/
theorem lessThanZeroInterval : Obligations.LessThanZeroInterval := by
  intro b
  have hsign := signNat_eq_zero_or_one b
  have hfields := toNat_eq_fields b
  have hexp := expNat_lt b
  have hfrac := fracNat_lt b
  rw [ltZero_iff]
  omega

end Sys2Proof.Machine
end

section
/-! SUPPORT. Proof of the statement on spec/40_fp_primitives.md R84 and R86 to R88: what fmul64, fsub64 and fdiv32
return, one lemma per class of operands. -/

namespace Sys2Proof.Machine

/-! ### Signs, signed patterns and rounded zeros -/

theorem sign64_xor (a b : Word) : (sign64 a ^^ sign64 b) = decide (signNat a ≠ signNat b) := by
  rcases signNat_eq_zero_or_one a with ha | ha <;> rcases signNat_eq_zero_or_one b with hb | hb <;>
    simp [sign64_eq, ha, hb]

theorem sign32_xor (a b : Word32) : (sign32 a ^^ sign32 b) = decide (signNat32 a ≠ signNat32 b) := by
  rcases signNat32_eq_zero_or_one a with ha | ha <;> rcases signNat32_eq_zero_or_one b with hb | hb <;>
    simp [sign32_eq, ha, hb]

theorem inf64_eq (s : Bool) : inf64 s = if s = true then 0xFFF0000000000000#64 else 0x7FF0000000000000#64 := by
  cases s <;> rfl

theorem zero64_eq (s : Bool) : zero64 s = if s = true then 0x8000000000000000#64 else 0x0000000000000000#64 := by
  cases s <;> rfl

theorem inf32_eq (s : Bool) : inf32 s = if s = true then 0xFF800000#32 else 0x7F800000#32 := by
  cases s <;> rfl

theorem zero32_eq (s : Bool) : zero32 s = if s = true then 0x80000000#32 else 0x00000000#32 := by
  cases s <;> rfl

theorem val64_of_isZero {b : Word} (h : isZero b = true) : val64 b = 0 := by
  rw [isZero_iff] at h
  simp [val64, finiteValue, exp64_toNat, frac64_toNat, h]

theorem round64_zero (zs : Bool) : round64 0 zs = zero64 zs := by
  rw [round64, roundTo, if_pos rfl]; rfl

section Binary64

variable {a b : Word}

/-! ### fmul64 (R86) -/

theorem fmul64_of_isNan_left (ha : isNan a = true) : fmul64 a b = quiet64 a := if_pos ha

theorem fmul64_of_isNan_right (ha : isNan a = false) (hb : isNan b = true) : fmul64 a b = quiet64 b := by
  simp [fmul64, ha, hb]

theorem fmul64_of_isZero_isInf (ha : isZero a = true) (hb : isInf b = true) : fmul64 a b = dnan64 := by
  simp [fmul64, isNan_of_isZero ha, isNan_of_isInf hb, ha, hb]

theorem fmul64_of_isInf_isZero (ha : isInf a = true) (hb : isZero b = true) : fmul64 a b = dnan64 := by
  simp [fmul64, isNan_of_isInf ha, isNan_of_isZero hb, ha, hb]

/-- An infinity by an infinity or by a nonzero number. -/
theorem fmul64_of_isInf (ha : isNan a = false) (hb : isNan b = false) (hinf : isInf a = true ∨ isInf b = true)
    (ha0 : isZero a = false) (hb0 : isZero b = false) :
    fmul64 a b = if signNat a = signNat b then 0x7FF0000000000000#64 else 0xFFF0000000000000#64 := by
  simp [fmul64, ha, hb, hinf, ha0, hb0, sign64_xor, inf64_eq]

theorem fmul64_of_finite (ha : Finite64 a) (hb : Finite64 b) :
    fmul64 a b = round64 (val64 a * val64 b) (decide (signNat a ≠ signNat b)) := by
  obtain ⟨hna, hia⟩ := ha
  obtain ⟨hnb, hib⟩ := hb
  simp [fmul64, hna, hnb, hia, hib, sign64_xor]

theorem fmul64_of_isZero (ha : Finite64 a) (hb : Finite64 b) (h0 : isZero a = true ∨ isZero b = true) :
    fmul64 a b = if signNat a = signNat b then 0x0000000000000000#64 else 0x8000000000000000#64 := by
  have hq : val64 a * val64 b = 0 := mul_eq_zero.2 (h0.imp val64_of_isZero val64_of_isZero)
  rw [fmul64_of_finite ha hb, hq, round64_zero, zero64_eq]
  simp

/-! ### fsub64 (R87) -/

theorem fsub64_of_isNan_left (ha : isNan a = true) : fsub64 a b = quiet64 a := if_pos ha

theorem fsub64_of_isNan_right (ha : isNan a = false) (hb : isNan b = true) : fsub64 a b = quiet64 b := by
  simp [fsub64, ha, hb]

theorem fsub64_of_isInf_same_sign (ha : isInf a = true) (hb : isInf b = true) (hs : sign64 a = sign64 b) :
    fsub64 a b = dnan64 := by
  simp [fsub64, isNan_of_isInf ha, isNan_of_isInf hb, ha, hb, hs]

theorem fsub64_of_isInf_other_sign (ha : isInf a = true) (hb : isInf b = true) (hs : signNat a ≠ signNat b) :
    fsub64 a b = a := by
  have hs' : sign64 a ≠ sign64 b := by simpa [← Bool.xor_iff_ne, sign64_xor] using hs
  simp [fsub64, isNan_of_isInf ha, isNan_of_isInf hb, ha, hb, hs']

theorem fsub64_of_isInf_left (hnb : isNan b = false) (ha : isInf a = true) (hb : isInf b = false) : fsub64 a b = a := by
  simp [fsub64, isNan_of_isInf ha, hnb, ha, hb]

theorem fsub64_of_isInf_right (hna : isNan a = false) (ha : isInf a = false) (hb : isInf b = true) :
    fsub64 a b = if signNat b = 1 then 0x7FF0000000000000#64 else 0xFFF0000000000000#64 := by
  simp [fsub64, hna, isNan_of_isInf hb, ha, hb, sign64_eq, inf64_eq]

theorem fsub64_of_isZero (ha : isZero a = true) (hb : isZero b = true) :
    fsub64 a b = if signNat a = 1 ∧ signNat b = 0 then 0x8000000000000000#64 else 0x0000000000000000#64 := by
  have hs : (sign64 a && !sign64 b) = decide (signNat a = 1 ∧ signNat b = 0) := by
    rcases signNat_eq_zero_or_one b with h | h <;> simp [sign64_eq, h]
  simp [fsub64, isNan_of_isZero ha, isNan_of_isZero hb, isInf_of_isZero ha, isInf_of_isZero hb, ha, hb, hs, zero64_eq]

theorem fsub64_of_finite (ha : Finite64 a) (hb : Finite64 b) (h0 : isZero a = false ∨ isZero b = false) :
    fsub64 a b = round64 (val64 a - val64 b) false := by
  obtain ⟨hna, hia⟩ := ha
  obtain ⟨hnb, hib⟩ := hb
  have h0' : (isZero a && isZero b) = false := Bool.and_eq_false_iff.2 h0
  simp [fsub64, hna, hnb, hia, hib, h0']

end Binary64

section Binary32

variable {a b : Word32}

/-! ### fdiv32 (R88) -/

theorem fdiv32_of_isNan32_left (ha : isNan32 a = true) : fdiv32 a b = quiet32 a := if_pos ha

theorem fdiv32_of_isNan32_right (ha : isNan32 a = false) (hb : isNan32 b = true) : fdiv32 a b = quiet32 b := by
  simp [fdiv32, ha, hb]

theorem fdiv32_of_isZero32_both (ha : isZero32 a = true) (hb : isZero32 b = true) : fdiv32 a b = dnan32 := by
  simp [fdiv32, isNan32_of_isZero32 ha, isNan32_of_isZero32 hb, ha, hb]

theorem fdiv32_of_isInf32_both (ha : isInf32 a = true) (hb : isInf32 b = true) : fdiv32 a b = dnan32 := by
  simp [fdiv32, isNan32_of_isInf32 ha, isNan32_of_isInf32 hb, ha, hb]

theorem fdiv32_of_isInf32_left (hnb : isNan32 b = false) (ha : isInf32 a = true) (hb : isInf32 b = false) :
    fdiv32 a b = if signNat32 a = signNat32 b then 0x7F800000#32 else 0xFF800000#32 := by
  simp [fdiv32, isNan32_of_isInf32 ha, isZero32_of_isInf32 ha, hnb, ha, hb, sign32_xor, inf32_eq]

theorem fdiv32_of_isInf32_right (hna : isNan32 a = false) (ha : isInf32 a = false) (hb : isInf32 b = true) :
    fdiv32 a b = if signNat32 a = signNat32 b then 0x00000000#32 else 0x80000000#32 := by
  simp [fdiv32, isNan32_of_isInf32 hb, isZero32_of_isInf32 hb, hna, ha, hb, sign32_xor, zero32_eq]

/-- Division of a nonzero number by zero. -/
theorem fdiv32_of_isZero32_right (ha : Finite32 a) (ha0 : isZero32 a = false) (hb : isZero32 b = true) :
    fdiv32 a b = if signNat32 a = signNat32 b then 0x7F800000#32 else 0xFF800000#32 := by
  obtain ⟨hna, hia⟩ := ha
  simp [fdiv32, isNan32_of_isZero32 hb, isInf32_of_isZero32 hb, hna, hia, ha0, hb, sign32_xor, inf32_eq]

theorem fdiv32_of_finite (ha : Finite32 a) (hb : Finite32 b) (hb0 : isZero32 b = false) :
    fdiv32 a b = round32 (val32 a / val32 b) (decide (signNat32 a ≠ signNat32 b)) := by
  obtain ⟨hna, hia⟩ := ha
  obtain ⟨hnb, hib⟩ := hb
  simp [fdiv32, hna, hnb, hia, hib, hb0, sign32_xor]

end Binary32

/-- Settles O26: first the NaN operands and the invalid operations, then product, difference and quotient by the classes
of the operands. -/
theorem primitivesByOperandClass : Obligations.PrimitivesByOperandClass :=
  ⟨⟨fun _ _ ha => ⟨fmul64_of_isNan_left ha, fsub64_of_isNan_left ha⟩,
    fun _ _ ha hb => ⟨fmul64_of_isNan_right ha hb, fsub64_of_isNan_right ha hb⟩,
    fun _ _ => fdiv32_of_isNan32_left,
    fun _ _ => fdiv32_of_isNan32_right,
    fun _ _ ha hb => ⟨fmul64_of_isZero_isInf ha hb, fmul64_of_isInf_isZero hb ha⟩,
    fun _ _ => fsub64_of_isInf_same_sign,
    fun _ _ h => h.elim (fun ⟨ha, hb⟩ => fdiv32_of_isZero32_both ha hb)
      fun ⟨ha, hb⟩ => fdiv32_of_isInf32_both ha hb⟩,
   fun _ _ ha hb => ⟨fmul64_of_isInf ha hb, fmul64_of_finite, fmul64_of_isZero⟩,
   fun _ _ ha hb => ⟨fsub64_of_isInf_other_sign, fsub64_of_isInf_left hb, fsub64_of_isInf_right ha, fsub64_of_isZero,
     fsub64_of_finite⟩,
   fun _ _ ha hb => ⟨fdiv32_of_isInf32_left hb, fdiv32_of_isInf32_right ha, fdiv32_of_isZero32_right,
     fdiv32_of_finite⟩⟩

end Sys2Proof.Machine
end

section
/-! SUPPORT. The words of the commands of one and of two sources against the rows of spec/30_encoding.md R66, and what
`CompletesWith` asks of a command that sets no path flag, for both forms. -/

namespace Sys2Proof.Machine

/-! ### The word of a command selects its row (R61, R64, R66) -/

/-- A mask that covers the reserved bits and OPC acts on the register fields alone; the reserved bits are 0. -/
theorem wordFields_and_mask (rs2 rs1 rd m2 m1 md : BitVec 3) (opc : BitVec 6) :
    (0#13 ++ rs2 ++ 0#1 ++ rs1 ++ 0#1 ++ rd ++ 0#2 ++ opc) &&&
      (BitVec.allOnes 13 ++ m2 ++ BitVec.allOnes 1 ++ m1 ++ BitVec.allOnes 1 ++ md ++ BitVec.allOnes 2 ++
        BitVec.allOnes 6) =
    0#13 ++ (rs2 &&& m2) ++ 0#1 ++ (rs1 &&& m1) ++ 0#1 ++ (rd &&& md) ++ 0#2 ++ opc := by
  simp only [BitVec.and_append, BitVec.and_allOnes]

theorem commandWord_zero_fields : ∀ opc, commandWord opc 0 0 0 = opc.setWidth 32 := by decide

/-- The mask of the rows of one source leaves out RD and RS1, and RS2 is 0. -/
theorem selects_oneSource (name : String) (opc : BitVec 6) (rd rs1 : RegIx) :
    (⟨name, opc.setWidth 32, 0xFFFF88FF#32⟩ : OpcodeRow).selects (commandWord opc rd rs1 0) = true := by
  have hword := wordFields_and_mask 0#3 (bitsOfReg rs1) (bitsOfReg rd) 7#3 0#3 0#3 opc
  rw [BitVec.zero_and, BitVec.and_zero, BitVec.and_zero] at hword
  exact beq_iff_eq.2 (hword.trans (commandWord_zero_fields opc))

/-- The mask of the rows of two sources leaves out all three register fields. -/
theorem selects_twoSources (name : String) (opc : BitVec 6) (rd rs1 rs2 : RegIx) :
    (⟨name, opc.setWidth 32, 0xFFF888FF#32⟩ : OpcodeRow).selects (commandWord opc rd rs1 rs2) = true := by
  have hword := wordFields_and_mask (bitsOfReg rs2) (bitsOfReg rs1) (bitsOfReg rd) 0#3 0#3 0#3 opc
  rw [BitVec.and_zero, BitVec.and_zero, BitVec.and_zero] at hword
  exact beq_iff_eq.2 (hword.trans (commandWord_zero_fields opc))

/-! ### Commands that set no path flag -/

variable {name : String} {i : Instr} {rd rs1 rs2 : RegIx}

theorem completesWith_of_oneSource {value res : Word → Word} (hw : encode i = commandWord i.opc rd rs1 0)
    (ha : ∀ a b, answerOf i a b = .value rd (value a)) (hs : sources i = (some rs1, none))
    (hv : ∀ a, value a = res a) :
    CompletesWith ⟨name, i.opc.setWidth 32, 0xFFFF88FF#32⟩ i rd rs1 rs1 (fun a _ => res a)
      (fun _ _ => ⟨false, false, false⟩) := by
  refine completesWith_of_answerOf ?_ (fun a b => ?_) ?_ (.inr ⟨?_, fun a b b' => ?_⟩)
  · rw [hw]; exact selects_oneSource name i.opc rd rs1
  · rw [ha, hv]; rfl
  · rw [hs]
  · rw [hs]
  · rw [ha, ha]

theorem completesWith_of_twoSources {value res : Word → Word → Word} (hw : encode i = commandWord i.opc rd rs1 rs2)
    (ha : ∀ a b, answerOf i a b = .value rd (value a b)) (hs : sources i = (some rs1, some rs2))
    (hv : ∀ a b, value a b = res a b) :
    CompletesWith ⟨name, i.opc.setWidth 32, 0xFFF888FF#32⟩ i rd rs1 rs2 res (fun _ _ => ⟨false, false, false⟩) := by
  refine completesWith_of_answerOf ?_ (fun a b => ?_) ?_ (.inl ?_)
  · rw [hw]; exact selects_twoSources name i.opc rd rs1 rs2
  · rw [ha, hv]; rfl
  · rw [hs]
  · rw [hs]

end Sys2Proof.Machine
end

section
/-! SUPPORT. Proofs of the statements on spec/41_bit_layout.md R100 to R106: the result of each command by the fields of
its operands as numbers. -/

namespace Sys2Proof.Machine

theorem eq_ofNat_of_toNat_eq {w n : Nat} {x : BitVec w} (h : x.toNat = n) : x = BitVec.ofNat w n := by
  rw [← h, BitVec.ofNat_toNat, BitVec.setWidth_eq]

theorem toNat_ofBool_sign64 (a : Word) : (BitVec.ofBool (sign64 a)).toNat = signNat a := by
  rcases signNat_eq_zero_or_one a with h | h <;> rw [sign64_eq, h] <;> rfl

/-! ### FCLASS (R100) -/

/-- The class code by the exponent field, 0, 0x7FF or another, and by the mantissa in the first two. -/
theorem classCode_toNat (a : Word) : (classCode a).toNat =
    if expNat a = 0 then (if fracNat a = 0 then 0 else 1)
    else if expNat a = 0x7FF then (if fracNat a = 0 then 3 else 4)
    else 2 := by
  by_cases hzero : expNat a = 0
  · by_cases hfrac : fracNat a = 0 <;> simp [classCode, isZero_iff, isSubnormal_iff, hzero, hfrac]
  · by_cases htop : expNat a = 0x7FF
    · by_cases hfrac : fracNat a = 0 <;>
        simp [classCode, isZero_iff, isSubnormal_iff, isNormal_iff, isInf_iff, htop, hfrac]
    · have hexp := expNat_lt a
      have hnormal : isNormal a = true := isNormal_iff.2 (by omega)
      simp [classCode, isZero_iff, isSubnormal_iff, hnormal, hzero, htop]

theorem fclassValue_eq (a : Word) : fclassValue a = BitVec.ofNat 64 (8 * signNat a +
    (if expNat a = 0 then (if fracNat a = 0 then 0 else 1)
     else if expNat a = 0x7FF then (if fracNat a = 0 then 3 else 4)
     else 2)) := by
  rw [fclassValue, ← BitVec.ofNat_toNat, toNat_append_eq, toNat_ofBool_sign64, classCode_toNat, Nat.mul_comm]
  rfl

/-- Settles O13: the sign and the class code side by side, each by the numbers of the fields. -/
theorem fclassCompletes : Obligations.FclassCompletes := fun _ _ =>
  completesWith_of_oneSource rfl (fun _ _ => rfl) rfl fclassValue_eq

/-! ### EXTS, EXTE, EXTM (R101 to R103) -/

theorem extsValue_eq (a : Word) : extsValue a = BitVec.ofNat 64 (signNat a) := by
  rw [extsValue, ← BitVec.ofNat_toNat, toNat_ofBool_sign64]

theorem exteValue_eq (a : Word) : exteValue a = BitVec.ofNat 64 (expNat a) := by
  rw [exteValue, ← BitVec.ofNat_toNat, exp64_toNat]

theorem extmValue_eq (a : Word) : extmValue a = BitVec.ofNat 64 (fracNat a) := by
  rw [extmValue, ← BitVec.ofNat_toNat, frac64_toNat]

/-- Settles O14: each field, zero-extended, is its number. -/
theorem extractCommandsComplete : Obligations.ExtractCommandsComplete := fun _ _ =>
  ⟨completesWith_of_oneSource rfl (fun _ _ => rfl) rfl extsValue_eq,
   completesWith_of_oneSource rfl (fun _ _ => rfl) rfl exteValue_eq,
   completesWith_of_oneSource rfl (fun _ _ => rfl) rfl extmValue_eq⟩

/-! ### INSS, INSE, INSM (R104 to R106) -/

theorem inssValue_eq (a b : Word) :
    inssValue a b = BitVec.ofNat 64 (b.toNat % 2 * 2 ^ 63 + a.toNat % 2 ^ 63) := by
  refine eq_ofNat_of_toNat_eq ?_
  rw [inssValue, toNat_append_eq, toNat_extract_eq, toNat_extract_eq, pow_zero, Nat.div_one, Nat.div_one, pow_one]

theorem inseValue_eq (a b : Word) :
    inseValue a b = BitVec.ofNat 64 (signNat a * 2 ^ 63 + b.toNat % 2 ^ 11 * 2 ^ 52 + fracNat a) := by
  refine eq_ofNat_of_toNat_eq ?_
  have := a.isLt
  rw [inseValue, toNat_append_eq, toNat_append_eq, toNat_extract_eq, toNat_extract_eq, toNat_extract_eq, signNat, fracNat]
  omega

theorem insmValue_eq (a b : Word) :
    insmValue a b = BitVec.ofNat 64 (signNat a * 2 ^ 63 + expNat a * 2 ^ 52 + fracNat b) := by
  refine eq_ofNat_of_toNat_eq ?_
  have := a.isLt
  rw [insmValue, toNat_append_eq, toNat_extract_eq, toNat_extract_eq, signNat, expNat, fracNat]
  omega

/-- Settles O15: the result is a concatenation of fields, so its number is the sum of theirs, each at its place. -/
theorem insertCommandsComplete : Obligations.InsertCommandsComplete := fun _ _ _ =>
  ⟨completesWith_of_twoSources rfl (fun _ _ => rfl) rfl inssValue_eq,
   completesWith_of_twoSources rfl (fun _ _ => rfl) rfl inseValue_eq,
   completesWith_of_twoSources rfl (fun _ _ => rfl) rfl insmValue_eq⟩

end Sys2Proof.Machine
end

section
/-! SUPPORT. Proofs of the statements on spec/42_rsqrt_sqrt.md R120 to R125: REST's estimate and reports by the fields of
the seed as numbers, and the result and path fields of each command of the family. -/

namespace Sys2Proof.Machine

/-! ### The fields of a seed as numbers (R121) -/

theorem seedInfinite_eq (a : Word) : seedInfinite a = decide (expNat a = 0x7FF ∧ fracNat a = 0) :=
  Bool.eq_iff_iff.2 (isInf_iff.trans decide_eq_true_iff.symm)

theorem seedClamped_eq (a : Word) : seedClamped a = decide (expNat a = 0) := by
  rw [seedClamped, beq_ofNat_eq _ (by decide), exp64_toNat]

theorem clampedExp_eq (a : Word) : clampedExp a = if expNat a = 0 then 1 else expNat a := by
  simp only [clampedExp, exp64_eq_iff (k := 0) (by decide), exp64_toNat]

theorem clampedExp_lt (a : Word) : clampedExp a < 2 ^ 11 := by
  have hexp := expNat_lt a
  rw [clampedExp_eq]
  split <;> omega

/-! ### The halved mantissa and the offset exponent (R121) -/

theorem halvedFrac_toNat (a : Word) : (frac64 a >>> 1).toNat = fracNat a / 2 := by
  rw [BitVec.toNat_ushiftRight, frac64_toNat, Nat.shiftRight_eq_div_pow, pow_one]

/-- The shift leaves bit 51 clear, so setting it adds its weight. -/
theorem halvedFrac_top_toNat (a : Word) : (frac64 a >>> 1 ||| 1#52 <<< 51).toNat = 2 ^ 51 + fracNat a / 2 := by
  have hfrac := fracNat_lt a
  have hhalf : fracNat a / 2 < 2 ^ 51 := by omega
  rw [BitVec.toNat_or, halvedFrac_toNat, Nat.or_comm]
  exact (Nat.two_pow_add_eq_or_of_lt hhalf 1).symm

/-- Half of an exponent and an offset of ten bits fit the exponent field. -/
theorem toNat_offsetExp {e k : Nat} (he : e < 2 ^ 11) (hk : k ≤ 0x200) :
    (BitVec.ofNat 11 (e / 2 + k)).toNat = e / 2 + k := by
  rw [BitVec.toNat_ofNat, Nat.mod_eq_of_lt (by omega)]

/-- The sign's weight is that of bit 63. -/
theorem sign64_toNat (a : Word) : (sign64 a).toNat = signNat a := by
  rw [← toNat_ofBool_sign64, BitVec.toNat_ofBool]

theorem restValue_eq (a : Word) : restValue a =
    let e := if expNat a = 0 then 1 else expNat a
    BitVec.ofNat 64 (signNat a * 2 ^ 63 +
      (if e % 2 = 1 then (e / 2 + 0x200) * 2 ^ 52 + fracNat a / 2
       else (e / 2 + 0x1FF) * 2 ^ 52 + (2 ^ 51 + fracNat a / 2))) := by
  have hexp := clampedExp_lt a
  rw [← clampedExp_eq]
  refine eq_ofNat_of_toNat_eq ?_
  by_cases hodd : clampedExp a % 2 = 1
  · rw [restValue, if_pos hodd, if_pos hodd, toNat_join64, sign64_toNat, halvedFrac_toNat, oddOffset,
      toNat_offsetExp hexp (by decide), Nat.add_assoc]
  · rw [restValue, if_neg hodd, if_neg hodd, toNat_join64, sign64_toNat, halvedFrac_top_toNat, evenOffset,
      toNat_offsetExp hexp (by decide), Nat.add_assoc]

/-! ### A command of one source that reports path flags -/

theorem completesWith_of_oneSource_flags {name : String} {i : Instr} {rd rs1 : RegIx} {res : Word → Word}
    {path : Word → Path} (hw : encode i = commandWord i.opc rd rs1 0)
    (ha : ∀ a b, answerOf i a b = ⟨some (rd, res a), path a⟩) (hs : sources i = (some rs1, none)) :
    CompletesWith ⟨name, i.opc.setWidth 32, 0xFFFF88FF#32⟩ i rd rs1 rs1 (fun a _ => res a) (fun a _ => path a) := by
  refine completesWith_of_answerOf ?_ ha ?_ (.inr ⟨?_, fun a b b' => ?_⟩)
  · rw [hw]; exact selects_oneSource name i.opc rd rs1
  · rw [hs]
  · rw [hs]
  · rw [ha, ha]

/-- Settles O17: the exponent after the clamp is odd or even; either way the three fields add up to the pattern. -/
theorem restCompletes : Obligations.RestCompletes := fun _ _ =>
  completesWith_of_oneSource_flags rfl
    (fun a _ => by rw [← restValue_eq, ← seedInfinite_eq, ← seedClamped_eq]; rfl) rfl

/-! ### SQRT (R125, R164) -/

/-- The result of each path of steps 1 to 9. -/
theorem sqrtRule_value (x : Word) : (sqrtRule x).1 =
    if ltZero x = true then negNan
    else if isZero x = true then x
    else if expNat (rseedValue x) = 0x7FF ∧ fracNat (rseedValue x) = 0 then x
    else nrmulValue x (nr4Value x (restValue (rseedValue x))) := by
  simp only [sqrtRule, seedInfinite_eq, decide_eq_true_iff, apply_ite Prod.fst]

/-- The path fields of each path of steps 1 to 9: step 1 alone records the domain error. -/
theorem sqrtRule_path (x : Word) : (sqrtRule x).2 =
    if ltZero x = true then ⟨true, false, false⟩
    else if isZero x = true then ⟨false, false, false⟩
    else if expNat (rseedValue x) = 0x7FF ∧ fracNat (rseedValue x) = 0 then ⟨false, true, false⟩
    else ⟨false, false, decide (expNat (rseedValue x) = 0)⟩ := by
  simp only [sqrtRule, seedInfinite_eq, seedClamped_eq, decide_eq_true_iff, apply_ite Prod.snd]

/-- Settles O19: result and path fields are the two components of `sqrtRule`, path by path. -/
theorem sqrtCompletes : Obligations.SqrtCompletes := fun rd _ =>
  completesWith_of_oneSource_flags rfl
    (fun x _ => congrArg₂ (fun v p => (⟨some (rd, v), p⟩ : Answer)) (sqrtRule_value x) (sqrtRule_path x)) rfl

/-! ### The stage commands without path flags (R120, R122 to R124) -/

/-- Settles O16: the seed is the composition of R120's three primitives. -/
theorem rseedCompletes : Obligations.RseedCompletes := fun _ _ =>
  completesWith_of_oneSource rfl (fun _ _ => rfl) rfl (fun _ => rfl)

theorem nr4Value_eq (x xn : Word) :
    nr4Value x xn = nrstepValue x (nrstepValue x (nrstepValue x (nrstepValue x xn))) := rfl

/-- Settles O18: R122's grouping and R124's order of factors are the definitions', and `nrIterations` is four. -/
theorem refinerCommandsComplete : Obligations.RefinerCommandsComplete := fun _ _ _ =>
  ⟨completesWith_of_twoSources rfl (fun _ _ => rfl) rfl (fun _ _ => rfl),
   completesWith_of_twoSources rfl (fun _ _ => rfl) rfl nr4Value_eq,
   completesWith_of_twoSources rfl (fun _ _ => rfl) rfl (fun _ _ => rfl)⟩

end Sys2Proof.Machine
end

section
/-! SUPPORT. Proof of the statement on spec/43_control.md R150. -/

namespace Sys2Proof.Machine

/-- NOP has no source, so its issue draws no free value, whatever registers are unwritten. -/
theorem issue_nop (s : State) : s.issue .nop = { s with inflight := some ⟨.nop, 0#64, 0#64⟩ } :=
  issue_of_written ⟨nofun, nofun⟩

theorem complete_nopAnswer (s : State) :
    s.complete nopAnswer = { s with
      status := ⟨s.status.dom, s.status.ill, s.status.ovr, ⟨false, false, false⟩⟩, inflight := none } := rfl

/-- Settles O12: the issue is `issue_nop`, and the completion writes no register and clears the path fields. -/
theorem nopCompletes : Obligations.NopCompletes := by
  refine ⟨by decide, by decide, fun s hidle => ?issue, fun s a b hflight => ?completion⟩
  case issue => exact ⟨s.issue .nop, 0#64, 0#64, exec_idle .nop hidle, issue_nop s, issue_busy s .nop⟩
  case completion => exact (exec_inFlight .nop hflight).trans (congrArg _ (complete_nopAnswer s))

end Sys2Proof.Machine
end

section
/-! SUPPORT. Proofs of the statements on spec/30_encoding.md R61 to R70: a command's word read back field by field, and
the rows of the opcode map told apart by OPC. -/

namespace Sys2Proof

variable (opc : BitVec 6) (rd rs1 rs2 : RegIx)

/-! ### The fields of a command word (R61) -/

theorem bitsOfReg_toNat (r : RegIx) : (bitsOfReg r).toNat = r.val :=
  (BitVec.toNat_ofNat ..).trans (Nat.mod_eq_of_lt r.isLt)

/-- Each field stands at its own bit, and nothing between them. -/
theorem commandWord_toNat : (commandWord opc rd rs1 rs2).toNat =
    rs2.val * 2 ^ 16 + rs1.val * 2 ^ 12 + rd.val * 2 ^ 8 + opc.toNat := by
  simp only [commandWord, toNat_append_eq, bitsOfReg_toNat, BitVec.toNat_ofNat, Nat.zero_mod]
  omega

/-- A register field is read back from the command word. -/
theorem regOfBits_commandWord {start : Nat} {r : RegIx}
    (h : (commandWord opc rd rs1 rs2).toNat / 2 ^ start % 2 ^ 3 = r.val) :
    regOfBits ((commandWord opc rd rs1 rs2).extractLsb' start 3) = r :=
  Fin.ext ((toNat_extract_eq ..).trans h)

@[simp] theorem fieldOpc_commandWord : fieldOpc (commandWord opc rd rs1 rs2) = opc := by
  have := opc.isLt
  apply BitVec.eq_of_toNat_eq
  rw [fieldOpc, toNat_extract_eq, commandWord_toNat]
  omega

@[simp] theorem fieldRd_commandWord : fieldRd (commandWord opc rd rs1 rs2) = rd := by
  have := opc.isLt
  apply regOfBits_commandWord
  rw [commandWord_toNat]
  omega

@[simp] theorem fieldRs1_commandWord : fieldRs1 (commandWord opc rd rs1 rs2) = rs1 := by
  have := opc.isLt
  apply regOfBits_commandWord
  rw [commandWord_toNat]
  omega

@[simp] theorem fieldRs2_commandWord : fieldRs2 (commandWord opc rd rs1 rs2) = rs2 := by
  have := opc.isLt
  apply regOfBits_commandWord
  rw [commandWord_toNat]
  omega

/-- A presented command word passes the decoder's tests of the reserved bits: only its opcode is left to read. -/
theorem decode_commandWord :
    decode ((commandWord opc rd rs1 rs2).setWidth 64) = decodeOpcode (commandWord opc rd rs1 rs2) := by
  have hopc := opc.isLt
  have hword := commandWord_toNat opc rd rs1 rs2
  have hlow : ((commandWord opc rd rs1 rs2).setWidth 64).extractLsb' 0 32 = commandWord opc rd rs1 rs2 := by
    apply BitVec.eq_of_toNat_eq
    rw [toNat_extract_eq, BitVec.toNat_setWidth]
    omega
  have hval : ((commandWord opc rd rs1 rs2).setWidth 64).toNat = (commandWord opc rd rs1 rs2).toNat := by
    rw [BitVec.toNat_setWidth]
    omega
  have hreserved := reserved_bits_zero_iff (v := (commandWord opc rd rs1 rs2).setWidth 64)
  rw [hval, hword, hlow] at hreserved
  obtain ⟨hupper, hclear⟩ := hreserved.2 (by omega)
  rw [decode, hlow, if_neg (not_not.2 hupper), if_neg (by rw [hclear]; decide)]

/-! ### Encoding and decoding are inverse (R66, R67) -/

/-- Settles O1: the decoder's arm of the command's opcode number reads the fields that `encode` has put there. -/
theorem decodeOfEncodeIsTheCommand : Obligations.DecodeOfEncodeIsTheCommand := by
  intro i
  cases i <;> rw [encodeValue, encode, decode_commandWord, decodeOpcode, fieldOpc_commandWord] <;>
    simp [Instr.opc, noOperands, oneSource, twoSources]

/-- Settles O3: the decoder reads every bit of the value. -/
theorem decodedValueIsTheEncoding : Obligations.DecodedValueIsTheEncoding := fun _ _ => eq_encodeValue_of_decode

/-- No two rows have one opcode number (R66). -/
theorem row_eq_of_opc : ∀ r₁ ∈ opcodeMap, ∀ r₂ ∈ opcodeMap, fieldOpc r₁.pattern = fieldOpc r₂.pattern → r₁ = r₂ := by
  decide

/-- Settles O4: both rows have the OPC of the word. -/
theorem noWordSelectsTwoRows : Obligations.NoWordSelectsTwoRows := fun _ r₁ hr₁ r₂ hr₂ h₁ h₂ =>
  row_eq_of_opc r₁ hr₁ r₂ hr₂ ((fieldOpc_of_selects hr₁ h₁).symm.trans (fieldOpc_of_selects hr₂ h₂))

/-- Settles O5: each word is the encoding of the command it stands for. -/
theorem specWordsDecode : Obligations.SpecWordsDecode :=
  ⟨decodeOfEncodeIsTheCommand (.sqrt 1 0), decodeOfEncodeIsTheCommand (.nr4 3 0 2),
    decodeOfEncodeIsTheCommand (.fclass 1 0), decodeOfEncodeIsTheCommand (.rest 3 2),
    decodeOfEncodeIsTheCommand (.inse 3 0 2), decodeOfEncodeIsTheCommand .nop⟩

end Sys2Proof
end

section
/-! SUPPORT. Proofs of the statements on spec/10_state.md R25 to R30 and spec/60_exceptions.md R161 to R164: every way a
step can change STATUS, and what follows for the path fields and the sticky bits. -/

namespace Sys2Proof.Machine

variable {s t : State} {i : Instr} {a b v : Word}

/-! ### What a step does to STATUS -/

/-- Every way a step from `s` to `t` can treat the stored fields of STATUS. -/
inductive StatusChange (s t : State) : Prop where
  /-- They stay. -/
  | same (hst : t.status = s.status)
  /-- The completion of the command in flight. -/
  | completion (f : InFlight) (hf : s.inflight = some f) (ht : t = s.complete (answerOf f.cmd f.a f.b))
  /-- OVR, by a write of CMD or of a data register while BUSY. -/
  | overrun (u : State) (off : Nat) (v : Word) (hm : NextMove s (.write off 64 v) u) (ho : off ≤ 0x40)
      (hb : s.busy = true) (hst : t.status = { s.status with ovr := true })
  /-- ILL, by an illegal value written to CMD at an idle block. -/
  | illegal (u : State) (v : Word) (hm : NextMove s (.write 0x40 64 v) u) (hi : Idle s) (hl : legal v = false)
      (hst : t.status = { s.status with ill := true })
  /-- A write of STATUS. -/
  | cleared (u : State) (v : Word) (hm : NextMove s (.write 0x48 64 v) u) (hst : t.status = s.status.clearOnes v)
  /-- A reset. -/
  | reset (u : State) (hm : NextMove s .reset u) (hst : t.status = .clear)

theorem illegal_of_decode_error (h : ∃ e, decode v = .error e) : legal v = false := by
  obtain ⟨e, he⟩ := h
  rw [Bool.eq_false_iff, Ne, legal_iff_decode]
  simp [he]

theorem statusChange_of_next (h : step s = .next t) : StatusChange s t := by
  cases stepCase_of_next h with
  | completion f hf _ ht => exact .completion f hf ht
  | wait _ _ ht => exact .same (by rw [ht])
  | read u _ hm _ ht => exact .same (by rw [ht, ← hm.status])
  | overrun u off v hm ho hb ht => exact .overrun u off v hm ho hb (by rw [ht, ← hm.status]; rfl)
  | writeReg u _ _ hm _ ht => exact .same (by rw [ht, writeReg_status, hm.status])
  | illegal u v hm hi hd ht =>
    exact .illegal u v hm hi (illegal_of_decode_error hd) (by rw [ht, ← hm.status]; rfl)
  | issue u _ _ hm _ _ ht => exact .same (by rw [ht, issue_status, hm.status])
  | clearStatus u v hm ht => exact .cleared u v hm (by rw [ht, hm.status])
  | reserved u _ _ hm _ ht => exact .same (by rw [ht, hm.status])
  | reset u hm ht => exact .reset u hm (by rw [ht, resetBlock_status])

/-! ### The path fields (R28 to R30, R125) -/

theorem atMostOnePathFlag_sqrtRule (x : Word) : AtMostOnePathFlag (sqrtRule x).2 := by
  rw [sqrtRule_path]
  split_ifs <;> exact ⟨rfl, rfl, rfl⟩

/-- A seed's exponent field is not all ones and zero at once. -/
theorem seedInfinite_and_seedClamped (x : Word) : (seedInfinite x && seedClamped x) = false := by
  rw [seedInfinite_eq, seedClamped_eq, ← Bool.decide_and, decide_eq_false_iff_not]
  omega

/-- Every completion reports at most one path flag. -/
theorem atMostOnePathFlag_answerOf (i : Instr) (a b : Word) : AtMostOnePathFlag (answerOf i a b).path := by
  cases i with
  | sqrt => exact atMostOnePathFlag_sqrtRule a
  | rest => exact ⟨rfl, rfl, seedInfinite_and_seedClamped a⟩
  | _ => exact ⟨rfl, rfl, rfl⟩

/-- Settles O49: a completion writes the fields of its answer, a reset clears them, and nothing else touches them. -/
theorem stepKeepsAtMostOnePathFlag : Obligations.StepKeepsAtMostOnePathFlag := by
  intro s t hs h
  cases statusChange_of_next h with
  | same hst => rwa [hst]
  | completion f _ ht =>
    rw [ht, complete_status, status_complete_eq]
    exact atMostOnePathFlag_answerOf ..
  | overrun _ _ _ _ _ _ hst => rwa [hst]
  | illegal _ _ _ _ _ hst => rwa [hst]
  | cleared _ _ _ hst => rwa [hst]
  | reset _ _ hst => rw [hst]; exact ⟨rfl, rfl, rfl⟩

/-! ### DOM rises (R25, R164) -/

/-- The domain error is that of step 1 of SQRT, whose result is the negative NaN. -/
theorem sqrtRule_of_dlast {x : Word} (h : (sqrtRule x).2.dlast = true) :
    ltZero x = true ∧ (sqrtRule x).1 = negNan := by
  cases hx : ltZero x with
  | true => exact ⟨rfl, by rw [sqrtRule_value, if_pos hx]⟩
  | false =>
    rw [sqrtRule_path, if_neg (by simp [hx])] at h
    split_ifs at h

/-- Only SQRT of an operand below zero records a domain error. -/
theorem answerOf_of_dlast (h : (answerOf i a b).path.dlast = true) :
    ∃ rd rs1, i = .sqrt rd rs1 ∧ ltZero a = true ∧ (answerOf i a b).write = some (rd, negNan) := by
  cases i with
  | sqrt rd rs1 =>
    obtain ⟨hlt, hval⟩ := sqrtRule_of_dlast h
    exact ⟨rd, rs1, rfl, hlt, by rw [answerOf, hval]⟩
  | _ => cases h

/-- Settles O50: only a completion sets DOM, and its answer then records the domain error. -/
theorem domSetOnlyByNegativeSqrt : Obligations.DomSetOnlyByNegativeSqrt := by
  intro s t h hs hset
  cases statusChange_of_next h with
  | same hst => rw [hst, hs] at hset; cases hset
  | completion f hf ht =>
    have hdlast : (answerOf f.cmd f.a f.b).path.dlast = true := by
      rwa [ht, complete_status, status_complete_eq, hs, Bool.false_or] at hset
    obtain ⟨rd, rs1, hcmd, hlt, hwrite⟩ := answerOf_of_dlast hdlast
    refine ⟨rd, rs1, f.a, f.b, ?_, hlt, ?_, ?_, ?_⟩
    · rw [hf, ← hcmd]
    · rw [ht, complete_reg, hwrite]; exact if_pos rfl
    · rw [ht, complete_status, status_complete_eq, hdlast]
    · rw [ht]; rfl
  | overrun _ _ _ _ _ _ hst => rw [hst, hs] at hset; cases hset
  | illegal _ _ _ _ _ hst => rw [hst, hs] at hset; cases hset
  | cleared _ _ _ hst => rw [hst, clearOnes_dom, hs] at hset; cases hset
  | reset _ _ hst => rw [hst] at hset; cases hset

/-! ### The sticky bits fall (R25 to R27, R48) -/

/-- The sticky bit at position `k` of STATUS: DOM, ILL or OVR. -/
def Status.sticky (st : Status) (k : Nat) : Bool := if k = 1 then st.dom else if k = 2 then st.ill else st.ovr

section Sticky

variable {k : Nat} {st st' : Status}

theorem statusWord_sticky (hk : k = 1 ∨ k = 2 ∨ k = 3) (s : State) : s.statusWord.getLsbD k = s.status.sticky k := by
  rw [statusWord_getLsbD]
  rcases hk with rfl | rfl | rfl <;> rfl

theorem sticky_clearOnes (hk : k = 1 ∨ k = 2 ∨ k = 3) (st : Status) (v : Word) :
    (st.clearOnes v).sticky k = (st.sticky k && !v.getLsbD k) := by
  rcases hk with rfl | rfl | rfl <;> rfl

/-- Where none of the three falls, a sticky bit stays set. -/
theorem sticky_mono (hdom : st.dom = true → st'.dom = true) (hill : st.ill = true → st'.ill = true)
    (hovr : st.ovr = true → st'.ovr = true) (h : st.sticky k = true) : st'.sticky k = true := by
  unfold Status.sticky at h ⊢
  split_ifs at h ⊢
  · exact hdom h
  · exact hill h
  · exact hovr h

end Sticky

/-- Settles O51: a completion and the two errors only set sticky bits, so a fall is a STATUS write's or a reset's. -/
theorem stickyClearedOnlyByHost : Obligations.StickyClearedOnlyByHost := by
  intro s t h k hk hs ht
  rw [statusWord_sticky hk] at hs ht
  have stays : t.status.sticky k ≠ true := by rw [ht]; decide
  cases statusChange_of_next h with
  | same hst => exact absurd (hst ▸ hs) stays
  | completion f _ hc =>
    refine absurd (sticky_mono ?_ ?_ ?_ hs) stays <;> rw [hc, complete_status, status_complete_eq]
    · exact fun hd => by rw [hd]; rfl
    · exact id
    · exact id
  | overrun _ _ _ _ _ _ hst => exact absurd (by rw [hst]; exact sticky_mono (st := s.status) id id (fun _ => rfl) hs) stays
  | illegal _ _ _ _ _ hst => exact absurd (by rw [hst]; exact sticky_mono (st := s.status) id (fun _ => rfl) id hs) stays
  | cleared u v hm hst =>
    rw [hst, sticky_clearOnes hk, hs, Bool.true_and, Bool.not_eq_false'] at ht
    exact ⟨u, .inr ⟨v, ht, hm⟩⟩
  | reset u hm _ => exact ⟨u, .inl hm⟩

/-! ### ILL and OVR rise (R26, R27, R162, R163) -/

theorem illegalWrite_of_ill_set (h : step s = .next t) (hs : s.status.ill = false) (ht : t.status.ill = true) :
    ∃ u v, NextMove s (.write 0x40 64 v) u ∧ Idle s ∧ legal v = false := by
  cases statusChange_of_next h with
  | same hst => rw [hst, hs] at ht; cases ht
  | completion f _ hc => rw [hc, complete_status, status_complete_eq, hs] at ht; cases ht
  | overrun _ _ _ _ _ _ hst => rw [hst, hs] at ht; cases ht
  | illegal u v hm hi hl _ => exact ⟨u, v, hm, hi, hl⟩
  | cleared _ _ _ hst => rw [hst, clearOnes_ill, hs] at ht; cases ht
  | reset _ _ hst => rw [hst] at ht; cases ht

theorem busyWrite_of_ovr_set (h : step s = .next t) (hs : s.status.ovr = false) (ht : t.status.ovr = true) :
    ∃ u v off, off ≤ 0x40 ∧ NextMove s (.write off 64 v) u ∧ s.busy = true := by
  cases statusChange_of_next h with
  | same hst => rw [hst, hs] at ht; cases ht
  | completion f _ hc => rw [hc, complete_status, status_complete_eq, hs] at ht; cases ht
  | overrun u off v hm ho hb _ => exact ⟨u, v, off, ho, hm, hb⟩
  | illegal _ _ _ _ _ hst => rw [hst, hs] at ht; cases ht
  | cleared _ _ _ hst => rw [hst, clearOnes_ovr, hs] at ht; cases ht
  | reset _ _ hst => rw [hst] at ht; cases ht

/-- Settles O52: the refused write is `step_of_busy_write`, and each error bit has one way to rise. -/
theorem interfaceErrorsRaisedOnlyByWrites : Obligations.InterfaceErrorsRaisedOnlyByWrites :=
  ⟨fun _ _ _ _ ho h8 hm hb => step_of_busy_write hm (admissible_iff.2 ⟨rfl, h8, by omega⟩) ho hb,
    fun _ _ h => ⟨illegalWrite_of_ill_set h, busyWrite_of_ovr_set h⟩⟩

/-! ### Layout and reset values (R23, R31, R37, R184) -/

/-- Settles O38: BUSY is where a command is in flight. -/
theorem statusWordLayout : Obligations.StatusWordLayout := statusWord_getLsbD

theorem cleanEntry_of_reset_fields (hs : s.status = .clear) (hi : s.inflight = none)
    (hw : s.written = .replicate 8 false) : CleanEntry [] s := by
  obtain ⟨-, -, hunwritten⟩ := emptied_of_reset_fields hs hi hw
  refine ⟨hi, by rw [NoFault, hs]; exact ⟨rfl, rfl, rfl⟩, fun r => ?_⟩
  simp [Written, hunwritten r]

/-- Settles O48: `State.reset` and `resetBlock` set the same three fields. -/
theorem pathFlagsAtReset : Obligations.PathFlagsAtReset := by
  refine ⟨⟨rfl, rfl, rfl⟩, ⟨rfl, rfl, rfl⟩, cleanEntry_of_reset_fields rfl rfl rfl, fun s u t hm h => ?_⟩
  rw [step_of_nextMove hm] at h
  cases h
  exact cleanEntry_of_reset_fields (resetBlock_status u) (resetBlock_inflight u) (resetBlock_written u)

end Sys2Proof.Machine
end

section
/-! SUPPORT. Proofs of the statements on spec/10_state.md R20 to R22 and R33 and spec/20_memory.md R51 to R53: what a step
does to the data registers and to the command in flight, and which steps answer a next state. -/

namespace Sys2Proof.Machine

variable {s t u : State} {f : InFlight} {off bits : Nat} {v : Word} {m : HostMove}

/-! ### What a step does to the data registers -/

/-- Every way a step from `s` to `t` can treat the data registers and their written bits. -/
inductive RegisterChange (s t : State) : Prop where
  /-- They stay. -/
  | same (hr : t.regs = s.regs) (hw : t.written = s.written)
  /-- The completion of the command in flight. -/
  | completion (f : InFlight) (hf : s.inflight = some f) (hx : exec f.cmd s = .next t)
  /-- A host write at an idle block. -/
  | hostWrite (u : State) (r : RegIx) (v : Word) (hm : NextMove s (.write (8 * r.val) 64 v) u) (hi : Idle s)
      (ht : t = u.writeReg r v)
  /-- A reset, which keeps the contents. -/
  | reset (u : State) (hm : NextMove s .reset u) (hr : t.regs = s.regs)

theorem registerChange_of_next (h : step s = .next t) : RegisterChange s t := by
  cases stepCase_of_next h with
  | completion f hf _ ht => exact .completion f hf (by rw [ht, exec_inFlight _ hf])
  | wait _ _ ht => exact .same (by rw [ht]) (by rw [ht])
  | read u _ hm _ ht => exact .same (by rw [ht, ← hm.regs]) (by rw [ht, ← hm.written])
  | overrun u _ _ hm _ _ ht => exact .same (by rw [ht, raise_regs, hm.regs]) (by rw [ht, raise_written, hm.written])
  | writeReg u r v hm hi ht => exact .hostWrite u r v hm hi ht
  | illegal u _ hm _ _ ht => exact .same (by rw [ht, raise_regs, hm.regs]) (by rw [ht, raise_written, hm.written])
  | issue u _ i hm _ _ ht => exact .same (by rw [ht, issue_regs, hm.regs]) (by rw [ht, issue_written, hm.written])
  | clearStatus u _ hm ht => exact .same (by rw [ht, ← hm.regs]) (by rw [ht, ← hm.written])
  | reserved u _ _ hm _ ht => exact .same (by rw [ht, hm.regs]) (by rw [ht, hm.written])
  | reset u hm ht => exact .reset u hm (by rw [ht, resetBlock_regs, hm.regs])

theorem reg_of_regs (h : t.regs = s.regs) (r : RegIx) : t.reg r = s.reg r := by rw [State.reg, State.reg, h]

theorem isWritten_of_written (h : t.written = s.written) (r : RegIx) : t.isWritten r = s.isWritten r := by
  rw [State.isWritten, State.isWritten, h]

/-- Settles O53: a completion keeps every register but its destination, a host write every register but its own. -/
theorem registerChangesOnlyByItsWriters : Obligations.RegisterChangesOnlyByItsWriters := by
  intro s t r h hne
  cases registerChange_of_next h with
  | same hr _ => exact absurd (reg_of_regs hr r) hne
  | completion f hf hx =>
    refine .inl ⟨f, hf, ?_, hx, ?_⟩
    · by_contra hd
      exact hne (completion_other_reg hf hx hd).1
    · rw [completion_eq hf hx, complete_inflight]
  | hostWrite u q v hm hi ht =>
    rw [ht, reg_writeReg, hm.reg] at hne
    split_ifs at hne with hq
    · subst hq
      exact .inr ⟨u, v, hm, hi, by rw [ht, reg_writeReg_same]⟩
    · exact absurd rfl hne
  | reset u _ hr => exact absurd (reg_of_regs hr r) hne

theorem written_of_completion {i : Instr} {r : RegIx} (hf : s.inflight = some f) (hx : exec i s = .next t)
    (hw : s.isWritten r = true) : t.isWritten r = true := by
  rw [completion_eq hf hx, complete_isWritten]
  cases dest i with
  | none => exact hw
  | some rd => simp [hw]

/-- Settles O54: a completion and a host write only set written bits. -/
theorem writtenUntilReset : Obligations.WrittenUntilReset := by
  intro s t r h hw hnoreset
  cases registerChange_of_next h with
  | same _ hsame => exact (isWritten_of_written hsame r).trans hw
  | completion f hf hx => exact written_of_completion hf hx hw
  | hostWrite u q v hm _ ht =>
    rw [Written, ht, isWritten_writeReg, hm.isWritten]
    split_ifs
    · rfl
    · exact hw
  | reset u hm _ => exact absurd ⟨u, hm⟩ hnoreset

/-! ### What a step does to the command in flight -/

/-- With a command in flight a step keeps the record, completes the command, or resets the block. -/
theorem inflight_of_next (hf : s.inflight = some f) (h : step s = .next t) :
    t.inflight = some f ∨
      (t.inflight = none ∧ ((∃ u, NextMove s .reset u) ∨ (s.blockNext = true ∧ exec f.cmd s = .next t))) := by
  cases stepCase_of_next h with
  | completion g hg hb ht =>
    obtain rfl : f = g := Option.some.inj (hf.symm.trans hg)
    exact .inr ⟨by rw [ht, complete_inflight], .inr ⟨hb, by rw [ht, exec_inFlight _ hf]⟩⟩
  | wait hi _ _ => rw [hf] at hi; cases hi
  | read u _ hm _ ht => exact .inl (by rw [ht, ← hf, ← hm.inflight])
  | overrun u _ _ hm _ _ ht => exact .inl (by rw [ht, raise_inflight, hm.inflight, hf])
  | writeReg _ _ _ _ hi _ => rw [hf] at hi; cases hi
  | illegal _ _ _ hi _ _ => rw [hf] at hi; cases hi
  | issue _ _ _ _ hi _ _ => rw [hf] at hi; cases hi
  | clearStatus u _ hm ht => exact .inl (by rw [ht, ← hf, ← hm.inflight])
  | reserved u _ _ hm _ ht => exact .inl (by rw [ht, hm.inflight, hf])
  | reset u hm ht => exact .inr ⟨by rw [ht, resetBlock_inflight], .inl ⟨u, hm⟩⟩

/-- Settles O55: where the record does not stay, BUSY falls; and a reset is `resetBlock` after its move. -/
theorem commandInFlightIsFixed : Obligations.CommandInFlightIsFixed := by
  refine ⟨fun s t f hf h => ?_, fun s u t hm h => ?_⟩
  · refine (inflight_of_next hf h).imp_right fun ⟨hnone, hend⟩ => ⟨?_, hnone, hend.imp_right And.right⟩
    exact ⟨h, busy_of_inflight hf, not_busy_of_idle hnone⟩
  · rw [step_of_nextMove hm] at h
    cases h
    exact ⟨rfl, hm.regs, rfl, hm.replies, hm.draws⟩

/-! ### Which steps answer a next state (R41, R160) -/

theorem step_ne_fault (s : State) (r : Fault) : step s ≠ .fault r := by
  rcases step_next_or_refused s with ⟨t, h⟩ | ⟨_, _, _, _, _, h, _⟩ <;> rw [h] <;> nofun

theorem step_next_iff_not_refused (s : State) : (∃ t, step s = .next t) ↔ ¬ ∃ r, step s = .refused r := by
  rcases step_next_or_refused s with ⟨t, h⟩ | ⟨_, _, _, r, _, h, _⟩ <;> simp [h]

/-- Settles O47: the inversion of `step` has no fault, and O46 says which accesses are refused. -/
theorem stepNeverFaults : Obligations.StepNeverFaults := by
  refine ⟨step_ne_fault, fun s r h => ?_, fun s u off bits v hm => ?_⟩
  · rcases step_next_or_refused s with ⟨t, h'⟩ | ⟨u, off, bits, _, ha, _, hm⟩
    · rw [h'] at h; cases h
    · exact ⟨u, off, bits, ha, hm⟩
  · rw [step_next_iff_not_refused, accessRefusedExactlyOutside s u off bits v hm, not_not]

/-- Settles O22: the issue at an idle block, and the completion otherwise. -/
theorem everyCommandAnswersNext : Obligations.EveryCommandAnswersNext := by
  intro i s
  cases hf : s.inflight with
  | none => exact ⟨_, exec_idle i hf⟩
  | some f => exact ⟨_, exec_inFlight i hf⟩

/-- Settles O7: an entry of the window's map, at an idle block. -/
theorem stepRunsTheDecodedCommand : Obligations.StepRunsTheDecodedCommand := by
  intro s u v i hm hi hd
  rw [step_of_write hm rfl, hostWrite_cmd, hostWriteCmd_of_ok (hm.inflight.trans hi) hd]

theorem blockNext_of_late (hb : s.busy = true) (h : ∀ p rest, s.host = p :: rest → p.afterCompletion = true) :
    s.blockNext = true := by
  unfold State.blockNext
  split
  · rfl
  · rename_i p rest hh
    rw [hb, h p rest hh, Bool.and_self]

/-- Settles O8: then the next event is the block's. -/
theorem stepCompletesTheCommandInFlight : Obligations.StepCompletesTheCommandInFlight := by
  intro s f hf h
  rw [step_of_blockNext hf (blockNext_of_late (busy_of_inflight hf) h), exec_inFlight _ hf]

/-- Settles O40: the destination in flight and an unwritten register both read as the next draw. -/
theorem unwrittenRegisterReadsAsAFreeValue : Obligations.UnwrittenRegisterReadsAsAFreeValue := by
  intro s u i hm hw
  have hread : u.hostReadReg i = u.draw := by
    rw [State.hostReadReg, State.readReg, hm.isWritten, if_neg (show ¬ s.isWritten i = true from hw), ite_self]
  rw [step_of_read hm (admissible_reg i), readAt_reg, hread, ← hm.replies, ← hm.draws]
  rfl

end Sys2Proof.Machine
end

section
/-! SUPPORT. Proofs of the statements on issue and completion in general (spec/20_memory.md R52, R53) and on whole
commands made one after the other (spec/42_rsqrt_sqrt.md R123). -/

namespace Sys2Proof.Machine

variable {s : State} {i : Instr}

/-! ### The latching of unwritten sources (R22, log entry 2) -/

/-- A latched source: how far the draw counter moves, and the value of an unwritten and of a written register. -/
theorem latch_spec (src : Option RegIx) (s : State) :
    s.draws ≤ (latch src s).2.draws ∧ (latch src s).2.draws ≤ s.draws + 1 ∧
      (∀ r, src = some r → ¬ Written s r →
        (latch src s).1 = Config.freeWord s.draws ∧ (latch src s).2.draws = s.draws + 1) ∧
      ∀ r, src = some r → Written s r → (latch src s).1 = s.reg r := by
  cases src with
  | none => exact ⟨le_rfl, Nat.le_succ _, nofun, nofun⟩
  | some r =>
    rcases readReg_cases s r with ⟨hw, h⟩ | ⟨hw, h⟩ <;> simp [latch, h, Written, hw]

/-- Latching writes no register. -/
theorem latch_written_iff (src : Option RegIx) (s : State) (r : RegIx) : Written (latch src s).2 r ↔ Written s r := by
  rw [latch_state]; rfl

theorem latch_reg (src : Option RegIx) (s : State) (r : RegIx) : (latch src s).2.reg r = s.reg r := by
  rw [latch_state]; rfl

theorem issue_eq_latch (s : State) (i : Instr) :
    s.issue i = { s with
      inflight := some ⟨i, (latch (sources i).1 s).1, (latch (sources i).2 (latch (sources i).1 s).2).1⟩
      draws := (latch (sources i).2 (latch (sources i).1 s).2).2.draws } := by
  have h1 := latch_state (sources i).1 s
  have h2 := latch_state (sources i).2 (latch (sources i).1 s).2
  unfold State.issue
  dsimp only
  rw [h2, h1]

/-- Settles O11: the first source is latched at the counter, the second where the first has left it. -/
theorem issueOfAnUnwrittenSourceDraws : Obligations.IssueOfAnUnwrittenSourceDraws := by
  intro i s hi
  obtain ⟨lo₁, hi₁, free₁, reg₁⟩ := latch_spec (sources i).1 s
  obtain ⟨lo₂, hi₂, free₂, reg₂⟩ := latch_spec (sources i).2 (latch (sources i).1 s).2
  simp only [latch_written_iff, latch_reg] at free₂ reg₂
  refine ⟨_, _, _, (exec_idle i hi).trans (congrArg _ (issue_eq_latch s i)), lo₁.trans lo₂, by omega,
    fun r hr hw => (free₁ r hr hw).1, reg₁, fun r hr hw => ?_, reg₂⟩
  obtain ⟨hval, hdraws⟩ := free₂ r hr hw
  exact ⟨_, lo₁, by omega, hval⟩

/-! ### The frame of both events -/

/-- Settles O20: the issue changes INFLIGHT and the draw counter, the completion the destination and STATUS's own
fields. -/
theorem commandFrame : Obligations.CommandFrame := by
  intro i s t h
  cases hf : s.inflight with
  | none =>
    obtain rfl := Host.Outcome.next.inj ((exec_idle i hf).symm.trans h)
    have hregs := issue_regs s i
    have hwritten := issue_written s i
    have hstatus := issue_status s i
    exact ⟨issue_host s i, issue_replies s i, by rw [hstatus], by rw [hstatus], fun hd => by rwa [hstatus],
      fun r _ => ⟨reg_of_regs hregs r, isWritten_of_written hwritten r⟩, fun _ => ⟨hregs, hwritten, hstatus⟩⟩
  | some f =>
    have hother := fun r => completion_other_reg (r := r) hf h
    have hstatus : t.status = s.status.complete (answerOf i f.a f.b).path := by
      obtain rfl := Host.Outcome.next.inj ((exec_inFlight i hf).symm.trans h)
      rfl
    rw [status_complete_eq] at hstatus
    have hc := completion_eq hf h
    refine ⟨by rw [hc, complete_host], by rw [hc, complete_replies], by rw [hstatus], by rw [hstatus],
      fun hd => by rw [hstatus, hd, Bool.true_or], hother, fun hidle => ?_⟩
    exact nomatch hf.symm.trans hidle

/-! ### Whole commands (R123) -/

/-- The record in flight leaves nothing behind that the completion does not write. -/
theorem complete_of_inflight (s : State) (g : Option InFlight) (ans : Answer) :
    State.complete { s with inflight := g } ans = s.complete ans := by
  rcases ans with ⟨_ | ⟨rd, v⟩, p⟩ <;> rfl

theorem issueAndComplete_of_written (hi : Idle s) (hw : SourcesWritten s i) : issueAndComplete i s =
    .next (s.complete (answerOf i (((sources i).1.map s.reg).getD 0#64) (((sources i).2.map s.reg).getD 0#64))) := by
  rw [issueAndComplete, exec_idle i hi, issue_of_written hw]
  simp only
  rw [exec_inFlight (f := ⟨i, ((sources i).1.map s.reg).getD 0#64, ((sources i).2.map s.reg).getD 0#64⟩) i rfl,
    complete_of_inflight]

section Refiner

variable {rd x xn : RegIx} {v w : Word}

theorem issueAndComplete_nrstep (hi : Idle s) (hx : Written s x) (hxn : Written s xn) :
    issueAndComplete (.nrstep rd x xn) s = .next (s.complete (.value rd (nrstepValue (s.reg x) (s.reg xn)))) :=
  issueAndComplete_of_written hi ⟨fun _ h => Option.some.inj h ▸ hx, fun _ h => Option.some.inj h ▸ hxn⟩

theorem issueAndComplete_nr4 (hi : Idle s) (hx : Written s x) (hxn : Written s xn) :
    issueAndComplete (.nr4 rd x xn) s = .next (s.complete (.value rd (nr4Value (s.reg x) (s.reg xn)))) :=
  issueAndComplete_of_written hi ⟨fun _ h => Option.some.inj h ▸ hx, fun _ h => Option.some.inj h ▸ hxn⟩

/-- A second result in the same register replaces the first. -/
theorem complete_value_twice (s : State) (rd : RegIx) (v w : Word) :
    (s.complete (.value rd v)).complete (.value rd w) = s.complete (.value rd w) := by
  simp [State.complete, Answer.value, State.writeResult, State.writeReg, status_complete_eq, Path.clear]

/-- NRSTEPs that read back their own result go on refining it, with the same x. -/
theorem repeatCommand_nrstep (hne : x ≠ rd) (hx : Written s x) (n : Nat) (v : Word) :
    repeatCommand (.nrstep rd x rd) n (s.complete (.value rd v)) =
      .next (s.complete (.value rd (refine (s.reg x) n v))) := by
  induction n generalizing v with
  | zero => rfl
  | succ n ih =>
    have hregx : (s.complete (.value rd v)).reg x = s.reg x := (complete_reg ..).trans (if_neg hne)
    have hregrd : (s.complete (.value rd v)).reg rd = v := (complete_reg ..).trans (if_pos rfl)
    have hwx : Written (s.complete (.value rd v)) x := 
      ((complete_isWritten s (.value rd v) x).trans (if_neg hne)).trans hx
    have hwrd : Written (s.complete (.value rd v)) rd := (complete_isWritten s (.value rd v) rd).trans (if_pos rfl)
    rw [repeatCommand, issueAndComplete_nrstep (complete_inflight ..) hwx hwrd, hregx, hregrd, complete_value_twice]
    exact ih _

/-- Settles O23: both sides end in the completion with four steps of `refine`, the first of them on xn. -/
theorem nr4IsFourNrsteps : Obligations.Nr4IsFourNrsteps := by
  intro rd x xn s hne hi hx hxn
  refine ⟨_, issueAndComplete_nrstep hi hx hxn, ?_⟩
  rw [issueAndComplete_nr4 hi hx hxn, repeatCommand_nrstep hne hx]
  rfl

end Refiner

end Sys2Proof.Machine
end

section
/-! SUPPORT. Proofs of the statements on runs: the races of a completion with a host access (spec/20_memory.md R56, R59),
the progress and the end of a run (R53, spec/70_reset_and_hazards.md R189), and the free values of the strict step. -/

namespace Sys2Proof.Machine

variable {s s' t u : State} {f : InFlight} {off : Nat} {v : Word} {rest : List Pending}

/-! ### Runs step by step -/

theorem run_succ (h : step s = .next s') (k : Nat) :
    Host.Core.run core (k + 1) s = Host.Core.run core k s' := by
  simp only [Host.Core.run, core, h]

theorem run_one (h : step s = .next t) : Host.Core.run core 1 s = .next t := run_succ h 0

theorem run_two (h : step s = .next s') (h' : step s' = .next t) : Host.Core.run core 2 s = .next t :=
  (run_succ h 1).trans (run_one h')

/-- A move at the head of the list that is not ordered after a completion is the next event. -/
theorem nextMove_cons (s : State) (m : HostMove) {late : Bool} (rest : List Pending)
    (h : s.busy = true → late = false) : NextMove { s with host := ⟨m, late⟩ :: rest } m { s with host := rest } :=
  ⟨late, rest, rfl, h, rfl⟩

/-- The completion of the command in flight, where the pending moves are ordered after it. -/
theorem step_completes (hf : s.inflight = some f) {l : List Pending}
    (hl : ∀ p rest, l = p :: rest → p.afterCompletion = true) :
    step { s with host := l } = .next (State.complete { s with host := l } (answerOf f.cmd f.a f.b)) :=
  step_of_blockNext (s := { s with host := l }) hf (blockNext_of_late (busy_of_inflight (s := s) hf) hl)

/-! ### An ended run (R182, R189) -/

theorem step_of_runEnded (h : RunEnded s) : step s = .next s := by
  obtain ⟨hhost, hbusy⟩ := h
  rcases step_cases s with ⟨f, hf, -, -⟩ | ⟨-, -, e⟩ | ⟨p, rest, hh, -, -⟩
  · rw [busy_of_inflight hf] at hbusy; cases hbusy
  · exact e
  · rw [hhost] at hh; cases hh

theorem run_of_runEnded (h : RunEnded s) (k : Nat) : Host.Core.run core k s = .next s := by
  induction k with
  | zero => rfl
  | succ k ih => rw [run_succ (step_of_runEnded h), ih]

/-- Two runs from one state end in one state: the longer waits where the shorter has ended. -/
theorem runEnded_unique {k k' : Nat} {t t' : State} (hk : Host.Core.run core k s = .next t) (ht : RunEnded t)
    (hk' : Host.Core.run core k' s = .next t') (ht' : RunEnded t') : t = t' := by
  have h := run_add k k' hk
  have h' := run_add k' k hk'
  rw [run_of_runEnded ht] at h
  rw [run_of_runEnded ht', Nat.add_comm] at h'
  exact Host.Outcome.next.inj (h.symm.trans h')

theorem written_of_endReg {r : RegIx} (h : endReg s r = some v) : Written s r ∧ s.reg r = v := by
  unfold endReg at h
  split_ifs at h with hw
  exact ⟨hw, Option.some.inj h⟩

/-- A host read of a written register at an idle block returns its content. -/
theorem readAt_of_written {r : RegIx} (hi : Idle s) (hw : Written s r) : s.readAt (8 * r.val) = (s.reg r, s) := by
  rw [readAt_reg, State.hostReadReg, readReg_of_written hw]
  simp [State.destInFlight, show s.inflight = none from hi]

/-- Settles O9: an ended run waits, so its end state is one; and its registers and STATUS are what a read returns. -/
theorem idleBlockWaits : Obligations.IdleBlockWaits := by
  refine ⟨rfl, fun s => step_of_runEnded, ?_, fun s late hend => ?_⟩
  · rintro s e e' ⟨k, t, hk, ht, rfl⟩ ⟨k', t', hk', ht', rfl⟩
    rw [runEnded_unique hk ht hk' ht']
  obtain ⟨hhost, hbusy⟩ := hend
  have hmove := fun m : HostMove => nextMove_cons s m (late := late) [] fun h => by rw [hbusy] at h; cases h
  have hsame : { s with host := [] } = s := by rw [← hhost]
  refine ⟨fun r v hr => ?_, ?_⟩
  · rw [endState_reg] at hr
    obtain ⟨hw, hval⟩ := written_of_endReg hr
    rw [step_of_read (hmove _) (admissible_reg r), hsame, readAt_of_written (idle_of_not_busy hbusy) hw, hval]
    rfl
  · rw [step_of_read (hmove _) rfl, hsame, readAt_status]
    rfl

/-! ### Reads, and writes made twice (R59) -/

theorem writeReg_twice (s : State) (r : RegIx) (v : Word) : (s.writeReg r v).writeReg r v = s.writeReg r v := by
  simp [State.writeReg]

theorem clearOnes_twice (st : Status) (v : Word) : (st.clearOnes v).clearOnes v = st.clearOnes v := by
  simp [Status.clearOnes]

/-- A write of a data register or of STATUS has an effect on the block that is the same whatever is pending, and that
the same write does not change again. -/
theorem hostWrite_twice (s : State) (v : Word) (hoff : (∃ i : RegIx, off = 8 * i.val) ∨ off = 0x48) :
    ∃ w : State, w.busy = s.busy ∧ ∀ l, hostWrite off v { s with host := l } = .next { w with host := l } ∧
      hostWrite off v { w with host := l } = .next { w with host := l } := by
  rcases hoff with ⟨i, rfl⟩ | rfl
  · simp only [hostWrite_reg, hostWriteReg]
    cases hb : s.busy with
    | true => exact ⟨s.raise .overrun, hb, fun l => ⟨if_pos hb, if_pos hb⟩⟩
    | false =>
      have hidle : ¬ s.busy = true := by rw [hb]; decide
      exact ⟨s.writeReg i v, hb, fun l => ⟨if_neg hidle,
        (if_neg hidle).trans (congrArg _ (writeReg_twice { s with host := l } i v))⟩⟩
  · refine ⟨{ s with status := s.status.clearOnes v }, rfl, fun l => ⟨rfl, ?_⟩⟩
    rw [hostWrite_status]
    simp only [clearOnes_twice]

/-- Settles O56: a read goes through `readAt` and `reply`; the second write finds what the first has left. -/
theorem readsHaveNoSideEffect : Obligations.ReadsHaveNoSideEffect := by
  refine ⟨fun s u t off bits hm h => ?_, fun s off v l₁ l₂ rest hoff hlate => ?_⟩
  · rw [next_of_read hm h, readAt_state, hm.eq]
    exact ⟨rfl, _, rfl⟩
  · have ha : admissible off 64 = true := by
      rcases hoff with ⟨i, rfl⟩ | rfl
      · exact admissible_reg i
      · rfl
    obtain ⟨w, hbusy, hw⟩ := hostWrite_twice s v hoff
    have hlate₂ : w.busy = true → l₂ = false := fun hb => (hlate (hbusy ▸ hb)).2
    have honce := fun l => nextMove_cons s (.write off 64 v) (late := l₁) l fun hb => (hlate hb).1
    exact ⟨_, (step_of_write (honce rest) ha).trans (hw rest).1,
      run_two ((step_of_write (honce _) ha).trans (hw _).1)
        ((step_of_write (nextMove_cons w _ rest hlate₂) ha).trans (hw rest).2)⟩

/-! ### Races of a completion with a write (R56, program P5) -/

/-- A write ordered first, and then the completion. -/
theorem run_write_then_complete (ha : admissible off 64 = true)
    (hw : hostWrite off v { s with host := [] } = .next { s' with host := [] }) (hf' : s'.inflight = some f) :
    Host.Core.run core 2 { s with host := [⟨.write off 64 v, false⟩] } =
      .next (State.complete { s' with host := [] } (answerOf f.cmd f.a f.b)) :=
  run_two ((step_of_write (nextMove_cons s _ [] fun _ => rfl) ha).trans hw) (step_completes hf' nofun)

/-- The completion, and then a write ordered after it, which finds an idle block. -/
theorem run_complete_then_write (hf : s.inflight = some f) (ha : admissible off 64 = true)
    (hw : hostWrite off v (State.complete { s with host := [] } (answerOf f.cmd f.a f.b)) = .next t) :
    Host.Core.run core 2 { s with host := [⟨.write off 64 v, true⟩] } = .next t := by
  have hcomplete := step_completes hf (l := [⟨.write off 64 v, true⟩])
    (fun _ _ h => by cases h; rfl)
  refine run_two hcomplete ?_
  rw [step_of_write (u := State.complete { s with host := [] } (answerOf f.cmd f.a f.b)) ⟨true, [], ?_, ?_, ?_⟩ ha, hw]
  · rw [complete_host]
  · exact fun hb => nomatch hb
  · generalize answerOf f.cmd f.a f.b = ans
    rcases ans with ⟨_ | ⟨rd, w⟩, p⟩ <;> rfl

theorem dom_of_negative_sqrt (st : Status) {rd rs1 : RegIx} {a b : Word} (hlt : ltZero a = true) :
    (st.complete (answerOf (.sqrt rd rs1) a b).path).dom = true := by
  have hpath : (answerOf (.sqrt rd rs1) a b).path = ⟨true, false, false⟩ := (sqrtRule_path a).trans (if_pos hlt)
  rw [status_complete_eq, hpath]
  exact Bool.or_true _

/-- Settles O57: the later of the two events has the last word on DOM. -/
theorem raceOnDomHasBothOutcomes : Obligations.RaceOnDomHasBothOutcomes := by
  intro s rd rs1 a b v hf hlt hv
  refine ⟨_, _, run_write_then_complete (s' := { s with status := s.status.clearOnes v }) rfl rfl hf,
    dom_of_negative_sqrt _ hlt, run_complete_then_write hf rfl rfl, ?_⟩
  rw [clearOnes_dom, hv]
  exact Bool.and_false _

/-- Settles O58: the completion writes one register and no OVR, so the two writes do not meet; the earlier write is
refused and the later one lands. -/
theorem busyWriteRaceHasTwoOutcomes : Obligations.BusyWriteRaceHasTwoOutcomes := by
  intro s f rd i v hf hd hne
  have hrefused : hostWrite (8 * i.val) v { s with host := [] } = .next { s.raise .overrun with host := [] } :=
    (hostWrite_reg ..).trans (if_pos (busy_of_inflight (s := s) hf))
  have hlands : hostWrite (8 * i.val) v (State.complete { s with host := [] } (answerOf f.cmd f.a f.b)) =
      .next ((State.complete { s with host := [] } (answerOf f.cmd f.a f.b)).writeReg i v) :=
    (hostWrite_reg ..).trans (if_neg nofun)
  have hf₁ : ({ s.raise .overrun with host := [] } : State).inflight = some f := hf
  have hf₂ : ({ s with host := [] } : State).inflight = some f := hf
  have hx₁ := exec_inFlight f.cmd hf₁
  have hx₂ := exec_inFlight f.cmd hf₂
  have hother : dest f.cmd ≠ some i := by
    rw [hd]
    exact fun h => hne (Option.some.inj h)
  refine ⟨_, _, run_write_then_complete (admissible_reg i) hrefused hf,
    run_complete_then_write hf (admissible_reg i) hlands, ?_, rfl, rfl, ?_, ?_, reg_writeReg_same .., ?_⟩
  · rw [reg_writeReg, if_neg hne]
    exact (completion_reg_dest hf₁ hx₁ hd).trans (completion_reg_dest hf₂ hx₂ hd).symm
  · exact (completion_other_reg hf₁ hx₁ hother).1
  · rw [complete_status, status_complete_eq]; rfl
  · rw [writeReg_status, complete_status, status_complete_eq]

/-! ### Progress (R53) -/

theorem mem_host_of_nextMove {m : HostMove} (h : NextMove s m u) : ∃ late, ⟨m, late⟩ ∈ s.host := by
  obtain ⟨late, rest, hh, -, -⟩ := h
  exact ⟨late, by rw [hh]; exact List.mem_cons_self⟩

theorem served_of_accessesOnly (h : AccessesOnly s) : Served s := by
  intro p hp
  have hacc := h p hp
  cases hm : p.move <;> rw [hm] at hacc
  · exact hacc
  · exact hacc
  · trivial

/-- A served move is not refused. -/
theorem step_next_of_served (h : Served s) : ∃ t, step s = .next t := by
  rcases step_next_or_refused s with hnext | ⟨u, off, bits, _, ha, _, hm⟩
  · exact hnext
  · have hadm : admissible off bits = true := by
      rcases hm with hm | ⟨v, hm⟩ <;> obtain ⟨_, hmem⟩ := mem_host_of_nextMove hm <;> exact h _ hmem
    rw [ha] at hadm
    cases hadm

/-- What a step does to the list of moves: a completion and the wait leave it, a move is taken off it. -/
theorem host_of_next (h : step s = .next t) :
    (s.blockNext = true ∧ s.busy = true ∧ t.busy = false ∧ t.host = s.host) ∨ RunEnded s ∨
      ∃ p, s.host = p :: t.host := by
  have taken : ∀ {m : HostMove} {u : State}, NextMove s m u → t.host = u.host → ∃ p, s.host = p :: t.host := by
    rintro m u ⟨late, rest, hh, -, rfl⟩ ht
    exact ⟨⟨m, late⟩, by rw [hh, ht]⟩
  cases stepCase_of_next h with
  | completion f hf hb ht => exact .inl ⟨hb, busy_of_inflight hf, by rw [ht]; rfl, by rw [ht, complete_host]⟩
  | wait hi hh _ => exact .inr (.inl ⟨hh, not_busy_of_idle hi⟩)
  | read u _ hm _ ht => exact .inr (.inr (taken hm (by rw [ht])))
  | overrun u _ _ hm _ _ ht => exact .inr (.inr (taken hm (by rw [ht, raise_host])))
  | writeReg u _ _ hm _ ht => exact .inr (.inr (taken hm (by rw [ht, writeReg_host])))
  | illegal u _ hm _ _ ht => exact .inr (.inr (taken hm (by rw [ht, raise_host])))
  | issue u _ i hm _ _ ht => exact .inr (.inr (taken hm (by rw [ht, issue_host])))
  | clearStatus u _ hm ht => exact .inr (.inr (taken hm (by rw [ht])))
  | reserved u _ _ hm _ ht => exact .inr (.inr (taken hm (by rw [ht])))
  | reset u hm ht => exact .inr (.inr (taken hm (by rw [ht, resetBlock_host])))

/-- An access ordered before the completion leaves the command in flight, and one pending move less. -/
theorem access_keeps_inflight (hf : s.inflight = some f) (ha : AccessesOnly s) (hb : s.blockNext = false) :
    ∃ p t, step s = .next t ∧ t.inflight = some f ∧ s.host = p :: t.host := by
  obtain ⟨t, h⟩ := step_next_of_served (served_of_accessesOnly ha)
  have hflight : t.inflight = some f := by
    rcases inflight_of_next hf h with hsame | ⟨-, ⟨u, hm⟩ | ⟨hb', -⟩⟩
    · exact hsame
    · obtain ⟨_, hmem⟩ := mem_host_of_nextMove hm
      exact (ha _ hmem).elim
    · rw [hb] at hb'; cases hb'
  rcases host_of_next h with ⟨hb', -⟩ | ⟨-, hidle⟩ | ⟨p, hh⟩
  · rw [hb] at hb'; cases hb'
  · rw [busy_of_inflight hf] at hidle; cases hidle
  · exact ⟨p, t, h, hflight, hh⟩

/-- A command in flight comes to its completion within as many steps as there are accesses pending. -/
theorem reaches_completion (l : List Pending) : ∀ s : State, s.host = l → s.inflight = some f → AccessesOnly s →
    ∃ k t, k ≤ l.length ∧ Host.Core.run core k s = .next t ∧ t.inflight = some f ∧ t.blockNext = true := by
  induction l with
  | nil => exact fun s hh hf _ => ⟨0, s, le_rfl, rfl, hf, by rw [State.blockNext, hh]⟩
  | cons p rest ih =>
    intro s hh hf ha
    cases hb : s.blockNext with
    | true => exact ⟨0, s, Nat.zero_le _, rfl, hf, hb⟩
    | false =>
      obtain ⟨q, s', h, hf', hh'⟩ := access_keeps_inflight hf ha hb
      obtain ⟨rfl, rfl⟩ := List.cons.inj (hh.symm.trans hh')
      obtain ⟨k, t, hk, hrun, ht⟩ := ih s' rfl hf' fun r hr => ha r (by rw [hh]; exact List.mem_cons_of_mem _ hr)
      exact ⟨k + 1, t, Nat.succ_le_succ hk, (run_succ h k).trans hrun, ht⟩

/-! ### The end of a run (R189) -/

/-- A bound on the steps left: every pending move may issue a command, which takes one more step to complete. -/
def State.stepsLeft (s : State) : Nat := 2 * s.host.length + s.busy.toNat

/-- Until the run has ended, every step lowers the bound. -/
theorem stepsLeft_of_served (h : Served s) (hn : ¬ RunEnded s) :
    ∃ t, step s = .next t ∧ Served t ∧ t.stepsLeft < s.stepsLeft := by
  obtain ⟨t, ht⟩ := step_next_of_served h
  refine ⟨t, ht, ?_⟩
  rcases host_of_next ht with ⟨-, hbusy, hidle, hh⟩ | hend | ⟨p, hh⟩
  · exact ⟨fun q hq => h q (hh ▸ hq), by simp [State.stepsLeft, hbusy, hidle, hh]⟩
  · exact absurd hend hn
  · refine ⟨fun q hq => h q (hh ▸ List.mem_cons_of_mem _ hq), ?_⟩
    have := t.busy.toNat_le
    simp only [State.stepsLeft, hh, List.length_cons]
    omega

theorem run_ends (n : Nat) : ∀ s : State, Served s → s.stepsLeft ≤ n →
    ∃ k t, k ≤ n ∧ Host.Core.run core k s = .next t ∧ RunEnded t := by
  induction n with
  | zero =>
    intro s h hn
    by_cases hend : RunEnded s
    · exact ⟨0, s, le_rfl, rfl, hend⟩
    · obtain ⟨_, _, _, hlt⟩ := stepsLeft_of_served h hend
      omega
  | succ n ih =>
    intro s h hn
    by_cases hend : RunEnded s
    · exact ⟨0, s, Nat.zero_le _, rfl, hend⟩
    · obtain ⟨s', hs, hserved, hlt⟩ := stepsLeft_of_served h hend
      obtain ⟨k, t, hk, hrun, ht⟩ := ih s' hserved (by omega)
      exact ⟨k + 1, t, Nat.succ_le_succ hk, (run_succ hs k).trans hrun, ht⟩

/-- Settles O59: accesses are used up one by one until the block is next; and `stepsLeft` bounds the whole run. -/
theorem commandInFlightCompletes : Obligations.CommandInFlightCompletes := by
  refine ⟨fun s f hf ha => ?_, fun s h => ?_⟩
  · obtain ⟨k, t, hk, hrun, hft, hb⟩ := reaches_completion s.host s rfl hf ha
    refine ⟨k, t, _, hk, hrun, hft, ?_, exec_inFlight f.cmd hft, rfl⟩
    rw [step_of_blockNext hft hb, exec_inFlight f.cmd hft]
  · refine run_ends _ s h ?_
    have := s.busy.toNat_le
    simp only [State.stepsLeft]
    omega

/-! ### The free values of the strict step (R22, R43, R49) -/

/-- The strict step is the step where every register that the next event reads is written. -/
theorem strictStep_next (h : strictStep s = .next t) : step s = .next t ∧ ∀ r ∈ s.nextReads, Written s r := by
  unfold strictStep at h
  split at h
  · cases h
  · rename_i hfind
    exact ⟨h, by simpa [Written] using hfind⟩

theorem nextReads_of_issue {i : Instr} (hm : NextMove s (.write cmdOffset 64 v) u) (hi : Idle s)
    (hd : decode v = .ok i) : s.nextReads = (sources i).1.toList ++ (sources i).2.toList := by
  have hb := hm.blockNext
  have hidle := not_busy_of_idle hi
  obtain ⟨late, rest, hh, -, -⟩ := hm
  simp [State.nextReads, hb, hh, hidle, hd, show admissible cmdOffset 64 = true from rfl]

theorem sourcesWritten_of_nextReads {i : Instr} (h : ∀ r ∈ (sources i).1.toList ++ (sources i).2.toList, Written s r) :
    SourcesWritten s i := by
  refine ⟨fun r hr => h r ?_, fun r hr => h r ?_⟩ <;> simp [hr]

/-- A read draws at the destination in flight, at an unwritten register and at a reserved offset. -/
theorem readAt_draws_eq (ha : admissible off 64 = true)
    (hreg : off < cmdOffset → s.destInFlight ≠ some (regAt off) ∧ Written s (regAt off)) (hres : off < 0x50) :
    (s.readAt off).2.draws = s.draws := by
  have h8 := admissible_offset ha
  unfold State.readAt
  split_ifs with h1 h2 h3
  · obtain ⟨hd, hw⟩ := hreg h1
    rw [State.hostReadReg, if_neg hd, readReg_of_written hw]
  · rfl
  · rfl
  · simp only [cmdOffset, statusOffset] at h1 h2 h3
    omega

/-- Settles O60: a step moves the draw counter at a read or at an issue, and the strict step makes neither of an unwritten
register. -/
theorem strictStepDrawsOnlyOpenReads : Obligations.StrictStepDrawsOnlyOpenReads := by
  intro s t h
  obtain ⟨hstep, hwritten⟩ := strictStep_next h
  refine ⟨hstep, fun hdraw => ?_⟩
  cases stepCase_of_next hstep with
  | completion f _ _ ht => exact absurd (by rw [ht, complete_draws]) hdraw
  | wait _ _ ht => exact absurd (by rw [ht]) hdraw
  | read u off hm ha ht =>
    refine ⟨u, off, hm, ?_⟩
    by_contra hclosed
    obtain ⟨hres, hreg⟩ := not_or.1 hclosed
    refine hdraw ?_
    rw [ht, ← hm.draws]
    refine readAt_draws_eq ha (fun ho => ?_) (not_le.1 hres)
    have hdest : s.destInFlight ≠ some (regAt off) := fun hd => hreg ⟨ho, hd⟩
    refine ⟨by rwa [hm.destInFlight], ?_⟩
    rw [offset_regAt ha ho] at hm
    rw [nextReads_of_regRead hm, if_neg hdest] at hwritten
    exact (hm.isWritten _).trans (hwritten _ (List.mem_singleton_self _))
  | overrun u _ _ hm _ _ ht => exact absurd (by rw [ht, raise_draws, hm.draws]) hdraw
  | writeReg u _ _ hm _ ht => exact absurd (by rw [ht, writeReg_draws, hm.draws]) hdraw
  | illegal u _ hm _ _ ht => exact absurd (by rw [ht, raise_draws, hm.draws]) hdraw
  | issue u v i hm hi hd ht =>
    rw [nextReads_of_issue hm hi hd] at hwritten
    have hsources : SourcesWritten u i := sourcesWritten_of_nextReads fun r hr => (hm.isWritten r).trans (hwritten r hr)
    exact absurd (by rw [ht, issue_of_written hsources, ← hm.draws]) hdraw
  | clearStatus u _ hm ht => exact absurd (by rw [ht, ← hm.draws]) hdraw
  | reserved u _ _ hm _ ht => exact absurd (by rw [ht, hm.draws]) hdraw
  | reset u hm ht => exact absurd (by rw [ht, resetBlock_draws, hm.draws]) hdraw

end Sys2Proof.Machine
end

section
/-! SUPPORT. Proofs of the statements on spec/41_bit_layout.md R107 and spec/42_rsqrt_sqrt.md R131: the fields of a pattern
built from fields, and SQRT's decisions by the codes of FCLASS. -/

namespace Sys2Proof.Machine

/-! ### Patterns with given fields (R80) -/

theorem signNat_lt (b : Word) : signNat b < 2 := by
  rcases signNat_eq_zero_or_one b with h | h <;> rw [h] <;> decide

/-- The three fields of a pattern whose number is written out by fields. -/
theorem fields_of_toNat {b : Word} {s e m : Nat} (he : e < 2 ^ 11) (hm : m < 2 ^ 52)
    (h : b.toNat = s * 2 ^ 63 + e * 2 ^ 52 + m) : signNat b = s ∧ expNat b = e ∧ fracNat b = m := by
  simp only [signNat, expNat, fracNat, h]
  omega

theorem fields_ofNat {s e m : Nat} (hs : s < 2) (he : e < 2 ^ 11) (hm : m < 2 ^ 52) :
    signNat (BitVec.ofNat 64 (s * 2 ^ 63 + e * 2 ^ 52 + m)) = s ∧
      expNat (BitVec.ofNat 64 (s * 2 ^ 63 + e * 2 ^ 52 + m)) = e ∧
      fracNat (BitVec.ofNat 64 (s * 2 ^ 63 + e * 2 ^ 52 + m)) = m :=
  fields_of_toNat he hm (by rw [BitVec.toNat_ofNat]; omega)

/-- Two patterns with the same fields are the same. -/
theorem eq_of_fields {a b : Word} (hs : signNat a = signNat b) (he : expNat a = expNat b)
    (hm : fracNat a = fracNat b) : a = b := by
  apply BitVec.eq_of_toNat_eq
  rw [toNat_eq_fields a, toNat_eq_fields b, hs, he, hm]

/-! ### The fields after an insertion (R104 to R106) -/

theorem fields_inssValue (a b : Word) : signNat (inssValue a b) = b.toNat % 2 ∧
    expNat (inssValue a b) = expNat a ∧ fracNat (inssValue a b) = fracNat a := by
  have hlow : a.toNat % 2 ^ 63 = expNat a * 2 ^ 52 + fracNat a := by
    simp only [expNat, fracNat]
    omega
  rw [inssValue_eq, hlow, ← Nat.add_assoc]
  exact fields_ofNat (Nat.mod_lt _ two_pos) (expNat_lt a) (fracNat_lt a)

theorem fields_inseValue (a b : Word) : signNat (inseValue a b) = signNat a ∧
    expNat (inseValue a b) = b.toNat % 2 ^ 11 ∧ fracNat (inseValue a b) = fracNat a := by
  rw [inseValue_eq]
  exact fields_ofNat (signNat_lt a) (Nat.mod_lt _ (Nat.two_pow_pos 11)) (fracNat_lt a)

theorem fields_insmValue (a b : Word) : signNat (insmValue a b) = signNat a ∧
    expNat (insmValue a b) = expNat a ∧ fracNat (insmValue a b) = fracNat b := by
  rw [insmValue_eq]
  exact fields_ofNat (signNat_lt a) (expNat_lt a) (fracNat_lt b)

/-! ### The numbers that the extractions give (R101 to R103) -/

theorem extsValue_toNat (a : Word) : (extsValue a).toNat = signNat a := by
  have := signNat_lt a
  rw [extsValue_eq, BitVec.toNat_ofNat, Nat.mod_eq_of_lt (by omega)]

theorem exteValue_toNat (a : Word) : (exteValue a).toNat = expNat a := by
  have := expNat_lt a
  rw [exteValue_eq, BitVec.toNat_ofNat, Nat.mod_eq_of_lt (by omega)]

theorem extmValue_toNat (a : Word) : (extmValue a).toNat = fracNat a := by
  have := fracNat_lt a
  rw [extmValue_eq, BitVec.toNat_ofNat, Nat.mod_eq_of_lt (by omega)]

/-- Inserting the three extracted fields of `x` into any pattern gives `x`. -/
theorem insert_extracted (x y : Word) :
    inssValue (inseValue (insmValue y (extmValue x)) (exteValue x)) (extsValue x) = x := by
  obtain ⟨hs, he, hm⟩ := fields_inssValue (inseValue (insmValue y (extmValue x)) (exteValue x)) (extsValue x)
  obtain ⟨-, he', hm'⟩ := fields_inseValue (insmValue y (extmValue x)) (exteValue x)
  obtain ⟨-, -, hm''⟩ := fields_insmValue y (extmValue x)
  apply eq_of_fields
  · rw [hs, extsValue_toNat, Nat.mod_eq_of_lt (signNat_lt x)]
  · rw [he, he', exteValue_toNat, Nat.mod_eq_of_lt (expNat_lt x)]
  · rw [hm, hm', hm'', fracNat, extmValue_toNat, Nat.mod_eq_of_lt (fracNat_lt x)]

/-- Settles O28: each extraction is the number of one field, and each insertion sets one field. -/
theorem fieldViewLaws : Obligations.FieldViewLaws := by
  intro x y v
  obtain ⟨ss, se, sm⟩ := fields_inssValue x v
  obtain ⟨es, ee, em⟩ := fields_inseValue x v
  obtain ⟨ms, me, mm⟩ := fields_insmValue x v
  refine ⟨insert_extracted x y, ?_⟩
  simp only [extsValue_eq, exteValue_eq, extmValue_eq, ss, se, sm, es, ee, em, ms, me, mm, and_self, and_true, true_and]
  rw [fracNat]

/-! ### SQRT's decisions by FCLASS (R100, R131) -/

/-- FCLASS's number: 8 times the sign, and the class code. -/
theorem fclassValue_toNat (a : Word) : (fclassValue a).toNat = 8 * signNat a + (classCode a).toNat := by
  rw [fclassValue, BitVec.toNat_setWidth, toNat_append_eq, toNat_ofBool_sign64]
  have := signNat_lt a
  have := (classCode a).isLt
  omega

theorem fclassValue_eq_iff (a : Word) {k : Nat} (hk : k < 2 ^ 64) :
    fclassValue a = BitVec.ofNat 64 k ↔ 8 * signNat a + (classCode a).toNat = k := by
  rw [← BitVec.toNat_inj, fclassValue_toNat, BitVec.toNat_ofNat, Nat.mod_eq_of_lt hk]

/-- Below zero: sign 1, and subnormal, normal or infinite. -/
theorem ltZero_iff_fclass (a : Word) : ltZero a = true ↔
    fclassValue a = 0x9#64 ∨ fclassValue a = 0xA#64 ∨ fclassValue a = 0xB#64 := by
  have hsign := signNat_lt a
  have hclass := classCode_toNat a
  rw [fclassValue_eq_iff a (by decide), fclassValue_eq_iff a (by decide), fclassValue_eq_iff a (by decide), ltZero_iff]
  split_ifs at hclass <;> omega

theorem isZero_iff_fclass (a : Word) : isZero a = true ↔ fclassValue a = 0x0#64 ∨ fclassValue a = 0x8#64 := by
  have hsign := signNat_lt a
  have hclass := classCode_toNat a
  rw [fclassValue_eq_iff a (by decide), fclassValue_eq_iff a (by decide), isZero_iff]
  split_ifs at hclass <;> omega

theorem seedInfinite_iff_fclass (a : Word) :
    seedInfinite a = true ↔ fclassValue a = 0x3#64 ∨ fclassValue a = 0xB#64 := by
  have hsign := signNat_lt a
  have hclass := classCode_toNat a
  rw [fclassValue_eq_iff a (by decide), fclassValue_eq_iff a (by decide), seedInfinite_eq, decide_eq_true_iff]
  split_ifs at hclass <;> omega

/-- Settles O37: each decision of SQRT is one of FCLASS's codes. -/
theorem sqrtIsTheComposition : Obligations.SqrtIsTheComposition := by
  intro x
  simp only [← ltZero_iff_fclass, ← isZero_iff_fclass, ← seedInfinite_iff_fclass]
  rfl

end Sys2Proof.Machine
end

section
/-! SUPPORT. Proofs of the statements on spec/40_fp_primitives.md R83: RoundTo's sign, the nearest value with ties to even,
and the bound from which it overflows. -/

namespace Sys2Proof.Machine

variable {F : Format} {a : Rat} {q : Rat} {zs : Bool}

theorem interchange_of_format (h : F = binary64 ∨ F = binary32) : F.Interchange ∧ F.fracBits ≠ 0 := by
  rcases h with rfl | rfl
  · exact ⟨binary64_interchange, by decide⟩
  · exact ⟨binary32_interchange, by decide⟩

/-! ### The sign, and when the result is finite -/

theorem assemble_sign (F : Format) (s : Bool) (e : Int) (k : Nat) : (assemble F s e k).sign = s := by
  unfold assemble
  split_ifs <;> rfl

theorem roundTo_sign (F : Format) (q : Rat) (zs : Bool) :
    (roundTo F q zs).sign = if q = 0 then zs else decide (q < 0) := by
  split_ifs with hq
  · rw [roundTo, if_pos hq]
  · rw [roundTo_of_ne_zero F hq, assemble_sign]

theorem roundTo_zero (F : Format) (zs : Bool) : roundTo F 0 zs = ⟨zs, 0, 0⟩ := if_pos rfl

theorem roundTo_of_overflows (hq : q ≠ 0) (h : Overflows F (roundExp F |q|) (roundSig F |q|)) :
    roundTo F q zs = ⟨decide (q < 0), 2 ^ F.expBits - 1, 0⟩ := by
  rw [roundTo_of_ne_zero F hq, assemble_overflow _ h]

theorem not_overflows_of_finite (hq : q ≠ 0) (h : FiniteFields F (roundTo F q zs)) :
    ¬ Overflows F (roundExp F |q|) (roundSig F |q|) := by
  intro ho
  have hlt := h.1
  rw [roundTo_of_overflows hq ho] at hlt
  exact lt_irrefl _ hlt

/-! ### The nearest value (R83) -/

/-- Among the multiples of the unit, the significand's is nearest, and another is as near only in a tie. -/
theorem significand_nearest_multiple (F : Format) (ha : 0 < a) (m : Int) :
    |a - roundSig F a * pow2 (roundExp F a - F.fracBits)| ≤ |a - m * pow2 (roundExp F a - F.fracBits)| ∧
      (|a - roundSig F a * pow2 (roundExp F a - F.fracBits)| = |a - m * pow2 (roundExp F a - F.fracBits)| →
        m ≠ roundSig F a → roundSig F a % 2 = 0) := by
  obtain ⟨-, -, -, -, hhalf, htie⟩ := significand_spec F ha
  have hu : 0 < pow2 (roundExp F a - F.fracBits) := pow2_pos _
  generalize pow2 (roundExp F a - F.fracBits) = u at *
  generalize roundSig F a = k at *
  by_cases hm : m = k
  · rw [hm]
    exact ⟨by push_cast; exact le_rfl, fun _ h => absurd rfl h⟩
  · have hstep : u ≤ |a - k * u| + |a - m * u| := by
      have hone : (1 : Rat) ≤ |((m - k : Int) : Rat)| := by
        exact_mod_cast Int.one_le_abs (sub_ne_zero.2 hm)
      calc u ≤ |((m - k : Int) : Rat)| * u := le_mul_of_one_le_left hu.le hone
        _ = |(a - k * u) - (a - m * u)| := by
          rw [← abs_of_pos hu, ← abs_mul, abs_of_pos hu]
          congr 1
          push_cast
          ring
        _ ≤ |a - k * u| + |a - m * u| := abs_sub _ _
    exact ⟨by linarith, fun heq _ => htie (by linarith)⟩

/-- Among the values of the format's grid of either sign, the significand's is nearest. One with a smaller unit lies below
the power of two under `a`, which is a multiple of the unit. -/
theorem significand_nearest_on_grid (F : Format) (ha : 0 < a) {j E : Int} (hE : F.emin ≤ E)
    (hj : j < 2 ^ (F.fracBits + 1)) :
    |a - roundSig F a * pow2 (roundExp F a - F.fracBits)| ≤ |a - j * pow2 (E - F.fracBits)| ∧
      (|a - roundSig F a * pow2 (roundExp F a - F.fracBits)| = |a - j * pow2 (E - F.fracBits)| →
        j * pow2 (E - F.fracBits) ≠ roundSig F a * pow2 (roundExp F a - F.fracBits) → roundSig F a % 2 = 0) := by
  have hnearest := significand_nearest_multiple F ha
  obtain ⟨-, -, -, hnormal, -, -⟩ := significand_spec F ha
  by_cases he : roundExp F a ≤ E
  · obtain ⟨d, hd⟩ := Int.eq_ofNat_of_zero_le (sub_nonneg.2 he)
    have hmul : (j : Rat) * pow2 (E - F.fracBits) = ((j * 2 ^ d : Int) : Rat) * pow2 (roundExp F a - F.fracBits) := by
      rw [show E - F.fracBits = (d : Int) + (roundExp F a - F.fracBits) by omega, pow2_add, pow2_natCast]
      push_cast
      ring
    rw [hmul]
    refine ⟨(hnearest _).1, fun heq hne => (hnearest _).2 heq fun h => hne ?_⟩
    rw [h]
    push_cast
    rfl
  · obtain ⟨hlow, -⟩ := hnormal (by omega)
    have hbelow : (j : Rat) * pow2 (E - F.fracBits) < pow2 (roundExp F a) := by
      have hj' : (j : Rat) < pow2 ((F.fracBits + 1 : Nat) : Int) := by
        rw [pow2_natCast]
        exact_mod_cast hj
      calc (j : Rat) * pow2 (E - F.fracBits) < pow2 ((F.fracBits + 1 : Nat) : Int) * pow2 (E - F.fracBits) :=
            mul_lt_mul_of_pos_right hj' (pow2_pos _)
        _ = pow2 (E + 1) := by rw [← pow2_add]; congr 1; push_cast; ring
        _ ≤ pow2 (roundExp F a) := pow2_le_pow2.2 (by omega)
    have hpow : pow2 (roundExp F a) = ((2 ^ F.fracBits : Int) : Rat) * pow2 (roundExp F a - F.fracBits) := by
      rw [show ((2 ^ F.fracBits : Int) : Rat) = pow2 (F.fracBits : Int) by rw [pow2_natCast]; push_cast; rfl,
        ← pow2_add]
      congr 1
      ring
    have hle := (hnearest (2 ^ F.fracBits)).1
    rw [← hpow, abs_of_nonneg (sub_nonneg.2 hlow)] at hle
    have hlt : |a - roundSig F a * pow2 (roundExp F a - F.fracBits)| < |a - j * pow2 (E - F.fracBits)| := by
      refine lt_of_lt_of_le ?_ (le_abs_self _)
      linarith
    exact ⟨hlt.le, fun heq => absurd heq hlt.ne⟩

/-- A finite value, and its negation, as a signed integer on the grid. -/
theorem signed_grid (hF : F.Interchange) {c : Fields} (hc : FiniteFields F c) {σ : Rat} (hσ : σ = 1 ∨ σ = -1) :
    ∃ j E : Int, F.emin ≤ E ∧ j < 2 ^ (F.fracBits + 1) ∧ σ * fieldsValue F c = j * pow2 (E - F.fracBits) := by
  obtain ⟨n, E, hE, -, hn, hval⟩ := fieldsValue_grid hF hc
  have hn' : (n : Int) < 2 ^ (F.fracBits + 1) := by exact_mod_cast hn
  have hneg : (-n : Int) < 2 ^ (F.fracBits + 1) := by
    have : (0 : Int) < 2 ^ (F.fracBits + 1) := by positivity
    omega
  rw [hval]
  rcases hσ with rfl | rfl <;> split_ifs
  · exact ⟨-n, E, hE, hneg, by push_cast; ring⟩
  · exact ⟨n, E, hE, hn', by push_cast; ring⟩
  · exact ⟨n, E, hE, hn', by push_cast; ring⟩
  · exact ⟨-n, E, hE, hneg, by push_cast; ring⟩

/-- RoundTo of a nonzero rational is nearest: both sides are taken times the sign of `q`. -/
theorem roundTo_nearest (hF : F.Interchange) (hm : F.fracBits ≠ 0) (hq : q ≠ 0)
    (hfin : FiniteFields F (roundTo F q zs)) {c : Fields} (hc : FiniteFields F c) :
    |q - fieldsValue F (roundTo F q zs)| ≤ |q - fieldsValue F c| ∧
      (|q - fieldsValue F (roundTo F q zs)| = |q - fieldsValue F c| →
        fieldsValue F c ≠ fieldsValue F (roundTo F q zs) → (roundTo F q zs).frac % 2 = 0) := by
  obtain ⟨-, -, hval, heven⟩ := roundTo_finite hF hm hq zs (not_overflows_of_finite hq hfin)
  have hσ : (if q < 0 then -1 else 1 : Rat) = 1 ∨ (if q < 0 then -1 else 1 : Rat) = -1 := by
    split_ifs <;> simp
  have hqσ : |q| = (if q < 0 then -1 else 1 : Rat) * q := by
    split_ifs with h
    · rw [abs_of_neg h, neg_one_mul]
    · rw [abs_of_nonneg (not_lt.1 h), one_mul]
  generalize (if q < 0 then -1 else 1 : Rat) = σ at *
  have hσσ : σ * σ = 1 := by rcases hσ with rfl | rfl <;> norm_num
  have hdist : ∀ x, |q - x| = |(|q| - σ * x)| := by
    intro x
    rw [hqσ, ← mul_sub, abs_mul]
    rcases hσ with rfl | rfl <;> simp
  obtain ⟨j, E, hE, hj, hgrid⟩ := signed_grid hF hc hσ
  have hround : σ * fieldsValue F (roundTo F q zs) = roundSig F |q| * pow2 (roundExp F |q| - F.fracBits) := by
    rw [hval, ← mul_assoc, hσσ, one_mul]
  obtain ⟨hle, htie⟩ := significand_nearest_on_grid F (abs_pos.2 hq) hE hj
  rw [hdist, hdist, hgrid, hround]
  refine ⟨hle, fun heq hne => heven (htie heq fun h => hne ?_)⟩
  rw [← hgrid, ← hround] at h
  exact mul_left_cancel₀ (left_ne_zero_of_mul (hσσ.trans_ne one_ne_zero)) h

/-- Settles O30: a zero is exact, and any other rational is rounded to the nearest by its significand. -/
theorem roundToIsNearestEven : Obligations.RoundToIsNearestEven := by
  intro F hF q zs
  obtain ⟨hI, hm⟩ := interchange_of_format hF
  refine ⟨roundTo_sign F q zs, fun hfin c hc => ?_⟩
  by_cases hq : q = 0
  · subst hq
    have hval : fieldsValue F (roundTo F 0 zs) = 0 := by simp [roundTo_zero, fieldsValue, finiteValue]
    rw [hval, sub_zero, abs_zero, roundTo_zero]
    exact ⟨abs_nonneg _, fun _ _ => rfl⟩
  · exact roundTo_nearest hI hm hq hfin hc

/-! ### Overflow (R83) -/

/-- The bound is half a unit below the power of two after the largest exponent. -/
theorem overflowBound_eq (F : Format) :
    ((2 ^ (F.fracBits + 2) - 1 : Nat) : Rat) * pow2 (F.emax - F.fracBits - 1) =
      pow2 (F.emax + 1) - pow2 (F.emax - F.fracBits) / 2 := by
  have hunit : pow2 (F.emax - F.fracBits) = 2 * pow2 (F.emax - F.fracBits - 1) := by
    rw [show F.emax - F.fracBits = 1 + (F.emax - F.fracBits - 1) by ring, pow2_add, show pow2 1 = 2 by decide +kernel]
    congr 2
    ring
  have htop : pow2 (F.emax + 1) = ((2 ^ (F.fracBits + 2) : Nat) : Rat) * pow2 (F.emax - F.fracBits - 1) := by
    rw [← pow2_natCast, ← pow2_add]
    congr 1
    push_cast
    ring
  rw [Nat.cast_sub Nat.one_le_two_pow, htop, hunit]
  push_cast
  ring

theorem pow2_succ_eq_units (F : Format) (e : Int) :
    pow2 (e + 1) = 2 ^ (F.fracBits + 1) * pow2 (e - F.fracBits) := by
  have hpow : (2 : Rat) ^ (F.fracBits + 1) = pow2 ((F.fracBits + 1 : Nat) : Int) := by
    rw [pow2_natCast]
    push_cast
    rfl
  rw [hpow, ← pow2_add]
  congr 1
  push_cast
  ring

/-- A significand that overflows comes from at least the bound. -/
theorem overflowBound_le_of_overflows (hF : F.Interchange) (ha : 0 < a)
    (h : Overflows F (roundExp F a) (roundSig F a)) : pow2 (F.emax + 1) - pow2 (F.emax - F.fracBits) / 2 ≤ a := by
  have hmin := hF.emin_le
  obtain ⟨-, -, -, hnormal, hhalf, -⟩ := significand_spec F ha
  rcases h with he | ⟨he, hk⟩
  · have hlow := (hnormal (by omega)).1
    have hmono : pow2 (F.emax + 1) ≤ pow2 (roundExp F a) := pow2_le_pow2.2 (by omega)
    have hunit := pow2_pos (F.emax - F.fracBits)
    linarith
  · rw [he, hk] at hhalf
    push_cast at hhalf
    rw [pow2_succ_eq_units F]
    linarith [(abs_le.1 hhalf).1]

/-- From the bound on the significand overflows: just below the power of two it is odd, so the tie at the bound goes up. -/
theorem overflows_of_overflowBound_le (ha : 0 < a)
    (h : pow2 (F.emax + 1) - pow2 (F.emax - F.fracBits) / 2 ≤ a) : Overflows F (roundExp F a) (roundSig F a) := by
  obtain ⟨-, hup, hk, -, hhalf, htie⟩ := significand_spec F ha
  have hu : 0 < pow2 (F.emax - F.fracBits) := pow2_pos _
  by_contra hno
  simp only [Overflows, not_or, not_lt, not_and] at hno
  obtain ⟨hle, hne⟩ := hno
  have he : roundExp F a = F.emax := by
    by_contra hlt
    have hlow : a < pow2 F.emax := lt_of_lt_of_le hup (pow2_le_pow2.2 (by omega))
    have hdouble : pow2 (F.emax + 1) = 2 * pow2 F.emax := by
      rw [add_comm, pow2_add]
      congr 1
    have hsmall : pow2 (F.emax - F.fracBits) ≤ pow2 F.emax := pow2_le_pow2.2 (by omega)
    linarith [pow2_pos F.emax]
  have hkR : (roundSig F a : Rat) + 1 ≤ 2 ^ (F.fracBits + 1) := by exact_mod_cast lt_of_le_of_ne hk (hne he)
  have hkU := mul_le_mul_of_nonneg_right hkR hu.le
  rw [he] at hhalf htie
  rw [pow2_succ_eq_units F] at h
  have hhigh := (abs_le.1 hhalf).2
  have heven : roundSig F a % 2 = 0 := htie (by rw [abs_of_nonneg (by linarith)]; linarith)
  have hlast : (roundSig F a : Rat) + 1 = 2 ^ (F.fracBits + 1) := mul_right_cancel₀ hu.ne' (by linarith)
  have hlast' : roundSig F a + 1 = 2 ^ F.fracBits * 2 := by exact_mod_cast hlast
  omega

theorem overflows_iff (hF : F.Interchange) (ha : 0 < a) : Overflows F (roundExp F a) (roundSig F a) ↔
    ((2 ^ (F.fracBits + 2) - 1 : Nat) : Rat) * pow2 (F.emax - F.fracBits - 1) ≤ a := by
  rw [overflowBound_eq]
  exact ⟨overflowBound_le_of_overflows hF ha, overflows_of_overflowBound_le ha⟩

theorem overflowBound_pos (F : Format) :
    0 < ((2 ^ (F.fracBits + 2) - 1 : Nat) : Rat) * pow2 (F.emax - F.fracBits - 1) := by
  refine mul_pos (Nat.cast_pos.2 (Nat.sub_pos_of_lt ?_)) (pow2_pos _)
  exact Nat.one_lt_two_pow (by omega)

/-- Either RoundTo overflows, from the bound on, to an infinity of the sign, or its result is finite. -/
theorem roundTo_overflow_or_finite (hF : F.Interchange) (hm : F.fracBits ≠ 0) (hq : q ≠ 0) :
    (((2 ^ (F.fracBits + 2) - 1 : Nat) : Rat) * pow2 (F.emax - F.fracBits - 1) ≤ |q| ∧
      roundTo F q zs = ⟨decide (q < 0), 2 ^ F.expBits - 1, 0⟩) ∨
    (¬ ((2 ^ (F.fracBits + 2) - 1 : Nat) : Rat) * pow2 (F.emax - F.fracBits - 1) ≤ |q| ∧
      FiniteFields F (roundTo F q zs)) := by
  rw [← overflows_iff hF (abs_pos.2 hq)]
  by_cases ho : Overflows F (roundExp F |q|) (roundSig F |q|)
  · exact .inl ⟨ho, roundTo_of_overflows hq ho⟩
  · exact .inr ⟨ho, (roundTo_finite hF hm hq zs ho).2.1⟩

theorem finiteFields_zero (hF : F.Interchange) (s : Bool) : FiniteFields F ⟨s, 0, 0⟩ := by
  have hemin := hF.emin_bias
  have hemax := hF.emax_bias
  have hle := hF.emin_le
  have hpow : ((2 ^ F.expBits : Nat) : Int) = 2 ^ F.expBits := by push_cast; rfl
  exact ⟨show 0 < 2 ^ F.expBits - 1 by omega, Nat.two_pow_pos _⟩

/-- Settles O31: zero is finite and below the bound; any other rational overflows or is finite. -/
theorem roundToOverflowBound : Obligations.RoundToOverflowBound := by
  intro F hF q zs
  obtain ⟨hI, hm⟩ := interchange_of_format hF
  by_cases hq : q = 0
  · subst hq
    rw [roundTo_zero, abs_zero]
    have hzero := finiteFields_zero hI zs
    have hexp : ¬ (0 : Nat) = 2 ^ F.expBits - 1 := hzero.1.ne
    exact ⟨iff_of_false hexp (overflowBound_pos F).not_ge, fun h => absurd h hexp, fun _ => hzero⟩
  · rcases roundTo_overflow_or_finite hI hm hq (zs := zs) with ⟨hb, hr⟩ | ⟨hb, hfin⟩
    · rw [hr]
      exact ⟨iff_of_true rfl hb, fun _ => rfl, fun h => absurd rfl h⟩
    · exact ⟨iff_of_false hfin.1.ne hb, fun h => absurd h hfin.1.ne, fun _ => hfin⟩

end Sys2Proof.Machine
end

section
/-! SUPPORT. Proofs of the statements on spec/40_fp_primitives.md R80, R81, R89 and R90: finite patterns and their values,
the order of the values, and what narrow and widen make of each class. -/

namespace Sys2Proof.Machine

/-! ### The order of the values of finite fields (R80, R81) -/

section Order

variable {F : Format} {e e' m m' : Nat}

theorem finiteValue_sign (F : Format) (s : Bool) (e m : Nat) :
    finiteValue F s e m = (if s then -1 else 1) * finiteValue F false e m := by
  cases s <;> simp only [finiteValue, if_true, Bool.false_eq_true, if_false, one_mul, neg_one_mul]

theorem finiteValue_nonneg (F : Format) (e m : Nat) : 0 ≤ finiteValue F false e m := by
  have := (pow2_pos (F.emin - F.fracBits)).le
  have := (pow2_pos (e - F.bias - F.fracBits)).le
  simp only [finiteValue, Bool.false_eq_true, if_false]
  split_ifs <;> positivity

/-- The values of one exponent field lie below the power of two at which the next begins. -/
theorem finiteValue_lt_next (hF : F.Interchange) (hm : m < 2 ^ F.fracBits) :
    finiteValue F false e m < (2 ^ F.fracBits : Nat) * pow2 ((e + 1 : Nat) - F.bias - F.fracBits) := by
  have hmin := hF.emin_bias
  have hmR : (m : Rat) < (2 ^ F.fracBits : Nat) := by exact_mod_cast hm
  simp only [finiteValue, Bool.false_eq_true, if_false]
  split_ifs with he
  · rw [show ((e + 1 : Nat) : Int) - F.bias - F.fracBits = F.emin - F.fracBits by omega]
    exact mul_lt_mul_of_pos_right hmR (pow2_pos _)
  · rw [show ((e + 1 : Nat) : Int) - F.bias - F.fracBits = 1 + (e - F.bias - F.fracBits) by push_cast; ring, pow2_add,
      show pow2 1 = 2 by decide +kernel, ← mul_assoc]
    refine mul_lt_mul_of_pos_right ?_ (pow2_pos _)
    push_cast at hmR ⊢
    linarith

theorem le_finiteValue (he : e ≠ 0) :
    (2 ^ F.fracBits : Nat) * pow2 (e - F.bias - F.fracBits) ≤ finiteValue F false e m := by
  simp only [finiteValue, Bool.false_eq_true, if_false, if_neg he]
  refine mul_le_mul_of_nonneg_right ?_ (pow2_pos _).le
  exact_mod_cast Nat.le_add_right _ _

theorem finiteValue_lt_of_exp_lt (hF : F.Interchange) (hm : m < 2 ^ F.fracBits) (he : e < e') :
    finiteValue F false e m < finiteValue F false e' m' := by
  refine lt_of_lt_of_le (finiteValue_lt_next hF hm) (le_trans ?_ (le_finiteValue (by omega)))
  exact mul_le_mul_of_nonneg_left (pow2_le_pow2.2 (by omega)) (Nat.cast_nonneg _)

theorem finiteValue_lt_of_frac_lt (hlt : m < m') : finiteValue F false e m < finiteValue F false e m' := by
  have hR : (m : Rat) < m' := by exact_mod_cast hlt
  simp only [finiteValue, Bool.false_eq_true, if_false]
  split_ifs
  · exact mul_lt_mul_of_pos_right hR (pow2_pos _)
  · refine mul_lt_mul_of_pos_right ?_ (pow2_pos _)
    push_cast
    linarith

/-- The values are in the order of the fields, the exponent first. -/
theorem finiteValue_lt_iff (hF : F.Interchange) (hm : m < 2 ^ F.fracBits) (hm' : m' < 2 ^ F.fracBits) :
    finiteValue F false e m < finiteValue F false e' m' ↔ e < e' ∨ (e = e' ∧ m < m') := by
  rcases lt_trichotomy e e' with he | rfl | he
  · exact iff_of_true (finiteValue_lt_of_exp_lt hF hm he) (.inl he)
  · rcases lt_trichotomy m m' with h | rfl | h
    · exact iff_of_true (finiteValue_lt_of_frac_lt h) (.inr ⟨rfl, h⟩)
    · simp
    · exact iff_of_false (finiteValue_lt_of_frac_lt h).not_gt (by omega)
  · exact iff_of_false (finiteValue_lt_of_exp_lt hF hm' he).not_gt (by omega)

theorem finiteValue_eq_zero_iff (F : Format) (s : Bool) (e m : Nat) : finiteValue F s e m = 0 ↔ e = 0 ∧ m = 0 := by
  have hsub := (pow2_pos (F.emin - F.fracBits)).ne'
  have hnor := (pow2_pos (e - F.bias - F.fracBits)).ne'
  have hsig : ((2 ^ F.fracBits + m : Nat) : Rat) ≠ 0 := by
    exact_mod_cast (Nat.add_pos_left (Nat.two_pow_pos _) m).ne'
  rw [finiteValue_sign, mul_eq_zero, or_iff_right (by split_ifs <;> norm_num)]
  simp only [finiteValue, Bool.false_eq_true, if_false]
  split_ifs with he <;> simp_all

/-- Finite fields of one sign with one value are the same. -/
theorem eq_of_fieldsValue_eq (hF : F.Interchange) {f g : Fields} (hf : FiniteFields F f) (hg : FiniteFields F g)
    (hs : f.sign = g.sign) (h : fieldsValue F f = fieldsValue F g) : f = g := by
  have hmag : finiteValue F false f.exp f.frac = finiteValue F false g.exp g.frac := by
    rw [fieldsValue, fieldsValue, finiteValue_sign, finiteValue_sign F g.sign, hs] at h
    exact mul_left_cancel₀ (by split_ifs <;> norm_num) h
  have h₁ := (finiteValue_lt_iff hF hf.2 hg.2).not.1 hmag.not_lt
  have h₂ := (finiteValue_lt_iff hF hg.2 hf.2).not.1 hmag.not_gt
  have hfields : f.exp = g.exp ∧ f.frac = g.frac := by omega
  cases f
  cases g
  simp_all

/-- The sign of a value is that of its fields. -/
theorem fieldsValue_neg_iff {f : Fields} (h : fieldsValue F f ≠ 0) : decide (fieldsValue F f < 0) = f.sign := by
  have hnn := finiteValue_nonneg F f.exp f.frac
  rw [fieldsValue, finiteValue_sign] at h ⊢
  cases hs : f.sign with
  | false => simpa using hnn
  | true =>
    have hne : finiteValue F false f.exp f.frac ≠ 0 := right_ne_zero_of_mul h
    simpa using lt_of_le_of_ne hnn hne.symm

/-- Rounding the value of finite fields gives the fields back. -/
theorem roundTo_fieldsValue (hF : F.Interchange) (hm : F.fracBits ≠ 0) {f : Fields} (hf : FiniteFields F f) :
    roundTo F (fieldsValue F f) f.sign = f := by
  by_cases h0 : fieldsValue F f = 0
  · obtain ⟨he, hfr⟩ := (finiteValue_eq_zero_iff F f.sign f.exp f.frac).1 h0
    rw [h0, roundTo_zero]
    obtain ⟨s, e, m⟩ := f
    obtain rfl : e = 0 := he
    obtain rfl : m = 0 := hfr
    rfl
  · obtain ⟨j, E, hE, hE', hj, hval⟩ := fieldsValue_grid hF hf
    have habs : |fieldsValue F f| = j * pow2 (E - F.fracBits) := by
      rw [hval, abs_mul, abs_of_nonneg (mul_nonneg (Nat.cast_nonneg j) (pow2_pos _).le)]
      split_ifs <;> simp
    obtain ⟨hsign, hfin, hv⟩ := roundTo_exact hF hm h0 f.sign hE hE' hj habs
    exact eq_of_fieldsValue_eq hF hfin hf (hsign.trans (fieldsValue_neg_iff h0)) hv

end Order

/-! ### Patterns and fields (R80, R81) -/

/-- The fields of a binary64 pattern. -/
def fields64 (b : Word) : Fields := ⟨sign64 b, expNat b, fracNat b⟩

/-- The fields of a binary32 pattern. -/
def fields32 (f : Word32) : Fields := ⟨sign32 f, expNat32 f, fracNat32 f⟩

section Patterns

variable {b c : Word} {f g : Word32} {x : Fields}

theorem val64_eq (b : Word) : val64 b = fieldsValue binary64 (fields64 b) := by
  rw [val64, exp64_toNat, frac64_toNat]
  rfl

theorem val32_eq (f : Word32) : val32 f = fieldsValue binary32 (fields32 f) := by
  rw [val32, exp32_toNat, frac32_toNat]
  rfl

theorem expNat32_lt (f : Word32) : expNat32 f < 2 ^ 8 := Nat.mod_lt _ (Nat.two_pow_pos 8)

theorem fracNat32_lt (f : Word32) : fracNat32 f < 2 ^ 23 := Nat.mod_lt _ (Nat.two_pow_pos 23)

theorem toNat_eq_fields32 (f : Word32) : f.toNat = signNat32 f * 2 ^ 31 + expNat32 f * 2 ^ 23 + fracNat32 f := by
  have := f.isLt
  simp only [signNat32, expNat32, fracNat32]
  omega

theorem toNat_join32 (s : Bool) (e : BitVec 8) (m : BitVec 23) :
    (join32 s e m).toNat = s.toNat * 2 ^ 31 + e.toNat * 2 ^ 23 + m.toNat := by
  simp only [join32, toNat_append_eq, BitVec.toNat_ofBool]
  omega

theorem sign32_toNat (f : Word32) : (sign32 f).toNat = signNat32 f := by
  rcases signNat32_eq_zero_or_one f with h | h <;> rw [sign32_eq, h] <;> rfl

theorem to64_toNat (he : x.exp < 2 ^ 11) (hm : x.frac < 2 ^ 52) :
    x.to64.toNat = x.sign.toNat * 2 ^ 63 + x.exp * 2 ^ 52 + x.frac := by
  rw [Fields.to64, toNat_join64, BitVec.toNat_ofNat, BitVec.toNat_ofNat, Nat.mod_eq_of_lt he, Nat.mod_eq_of_lt hm]

theorem to32_toNat (he : x.exp < 2 ^ 8) (hm : x.frac < 2 ^ 23) :
    x.to32.toNat = x.sign.toNat * 2 ^ 31 + x.exp * 2 ^ 23 + x.frac := by
  rw [Fields.to32, toNat_join32, BitVec.toNat_ofNat, BitVec.toNat_ofNat, Nat.mod_eq_of_lt he, Nat.mod_eq_of_lt hm]

theorem to64_fields64 (b : Word) : (fields64 b).to64 = b := by
  apply BitVec.eq_of_toNat_eq
  rw [to64_toNat (expNat_lt b) (fracNat_lt b), toNat_eq_fields b, ← sign64_toNat]
  rfl

theorem to32_fields32 (f : Word32) : (fields32 f).to32 = f := by
  apply BitVec.eq_of_toNat_eq
  rw [to32_toNat (expNat32_lt f) (fracNat32_lt f), toNat_eq_fields32 f, ← sign32_toNat]
  rfl

theorem fields64_to64 (he : x.exp < 2 ^ 11) (hm : x.frac < 2 ^ 52) : fields64 x.to64 = x := by
  obtain ⟨hs, he', hm'⟩ := fields_of_toNat he hm (to64_toNat he hm)
  rw [fields64, sign64_eq, hs, he', hm']
  obtain ⟨s, e, m⟩ := x
  cases s <;> rfl

theorem fields32_to32 (he : x.exp < 2 ^ 8) (hm : x.frac < 2 ^ 23) : fields32 x.to32 = x := by
  have hs := x.sign.toNat_lt
  have hn := to32_toNat he hm
  have hfields : signNat32 x.to32 = x.sign.toNat ∧ expNat32 x.to32 = x.exp ∧ fracNat32 x.to32 = x.frac := by
    simp only [signNat32, expNat32, fracNat32, hn]
    omega
  obtain ⟨hs', he', hm'⟩ := hfields
  rw [fields32, sign32_eq, hs', he', hm']
  obtain ⟨s, e, m⟩ := x
  cases s <;> rfl

theorem finite64_iff : Finite64 b ↔ FiniteFields binary64 (fields64 b) := by
  have he := expNat_lt b
  have hm := fracNat_lt b
  rw [Finite64, ← Bool.not_eq_true, ← Bool.not_eq_true, isNan_iff, isInf_iff]
  show _ ↔ expNat b < 2 ^ 11 - 1 ∧ fracNat b < 2 ^ 52
  omega

theorem finite32_iff : Finite32 f ↔ FiniteFields binary32 (fields32 f) := by
  have he := expNat32_lt f
  have hm := fracNat32_lt f
  rw [Finite32, ← Bool.not_eq_true, ← Bool.not_eq_true, isNan32_iff, isInf32_iff]
  show _ ↔ expNat32 f < 2 ^ 8 - 1 ∧ fracNat32 f < 2 ^ 23
  omega

theorem finiteFields64_bounds (h : FiniteFields binary64 x) : x.exp < 2 ^ 11 ∧ x.frac < 2 ^ 52 :=
  ⟨lt_of_lt_of_le h.1 (by decide), h.2⟩

theorem finiteFields32_bounds (h : FiniteFields binary32 x) : x.exp < 2 ^ 8 ∧ x.frac < 2 ^ 23 :=
  ⟨lt_of_lt_of_le h.1 (by decide), h.2⟩

/-! ### The values by the fields as numbers -/

theorem val64_by_fields (b : Word) : val64 b = (if signNat b = 0 then 1 else -1) *
    (if expNat b = 0 then (fracNat b : Rat) * 2 ^ (-1074 : Int)
     else ((2 ^ 52 + fracNat b : Nat) : Rat) * 2 ^ ((expNat b : Int) - 1075)) := by
  have hexp : (expNat b : Int) - 1023 - 52 = expNat b - 1075 := by ring
  rw [val64_eq, fieldsValue, finiteValue_sign]
  simp only [finiteValue, fields64, binary64, pow2_eq_zpow, Bool.false_eq_true, if_false, sign64_eq, decide_eq_true_eq,
    Nat.cast_ofNat, hexp]
  rcases signNat_eq_zero_or_one b with h | h <;> simp [h]

theorem val32_by_fields (f : Word32) : val32 f = (if signNat32 f = 0 then 1 else -1) *
    (if expNat32 f = 0 then (fracNat32 f : Rat) * 2 ^ (-149 : Int)
     else ((2 ^ 23 + fracNat32 f : Nat) : Rat) * 2 ^ ((expNat32 f : Int) - 150)) := by
  have hexp : (expNat32 f : Int) - 127 - 23 = expNat32 f - 150 := by ring
  rw [val32_eq, fieldsValue, finiteValue_sign]
  simp only [finiteValue, fields32, binary32, pow2_eq_zpow, Bool.false_eq_true, if_false, sign32_eq, decide_eq_true_eq,
    Nat.cast_ofNat, hexp]
  rcases signNat32_eq_zero_or_one f with h | h <;> simp [h]

theorem round64_val64 (h : Finite64 b) : round64 (val64 b) (sign64 b) = b := by
  rw [round64, val64_eq]
  exact (congrArg _ (roundTo_fieldsValue binary64_interchange (by decide) (finite64_iff.1 h))).trans (to64_fields64 b)

theorem round32_val32 (h : Finite32 f) : round32 (val32 f) (sign32 f) = f := by
  rw [round32, val32_eq]
  exact (congrArg _ (roundTo_fieldsValue binary32_interchange (by decide) (finite32_iff.1 h))).trans (to32_fields32 f)

/-- Settles O32: the fields' value, and RoundTo on it, in both formats. -/
theorem roundingAValueIsExact : Obligations.RoundingAValueIsExact :=
  ⟨fun b h => ⟨val64_by_fields b, round64_val64 h⟩, fun f h => ⟨val32_by_fields f, round32_val32 h⟩⟩

end Patterns

end Sys2Proof.Machine
end

section
/-! SUPPORT. Proof of the statement on spec/40_fp_primitives.md R89 and R90: narrow and widen class by class, narrow's two
bounds and widen's exactness. -/

namespace Sys2Proof.Machine

variable {b : Word} {f : Word32} {q : Rat} {zs : Bool}

/-! ### The fields of assembled and of rounded patterns -/

@[simp] theorem exp32_join32 (s : Bool) (e : BitVec 8) (m : BitVec 23) : exp32 (join32 s e m) = e := by
  have := m.isLt
  have := e.isLt
  apply BitVec.eq_of_toNat_eq
  rw [exp32_toNat, expNat32, toNat_join32]
  omega

@[simp] theorem frac32_join32 (s : Bool) (e : BitVec 8) (m : BitVec 23) : frac32 (join32 s e m) = m := by
  have := m.isLt
  apply BitVec.eq_of_toNat_eq
  rw [frac32_toNat, fracNat32, toNat_join32]
  omega

@[simp] theorem exp64_join64 (s : Bool) (e : BitVec 11) (m : BitVec 52) : exp64 (join64 s e m) = e := by
  have := m.isLt
  have := e.isLt
  apply BitVec.eq_of_toNat_eq
  rw [exp64_toNat, expNat, toNat_join64]
  omega

@[simp] theorem frac64_join64 (s : Bool) (e : BitVec 11) (m : BitVec 52) : frac64 (join64 s e m) = m := by
  have := m.isLt
  apply BitVec.eq_of_toNat_eq
  rw [frac64_toNat, fracNat, toNat_join64]
  omega

@[simp] theorem signNat_join64 (s : Bool) (e : BitVec 11) (m : BitVec 52) : signNat (join64 s e m) = s.toNat := by
  have := m.isLt
  have := e.isLt
  rw [signNat, toNat_join64]
  omega

theorem fields32_round32 (q : Rat) (zs : Bool) : fields32 (round32 q zs) = roundTo binary32 q zs := by
  obtain ⟨-, hinf, hfin⟩ := roundToOverflowBound binary32 (.inr rfl) q zs
  by_cases he : (roundTo binary32 q zs).exp = 2 ^ binary32.expBits - 1
  · exact fields32_to32 (by rw [he]; decide) (by rw [hinf he]; decide)
  · obtain ⟨he', hm'⟩ := finiteFields32_bounds (hfin he)
    exact fields32_to32 he' hm'

theorem fields64_round64 (q : Rat) (zs : Bool) : fields64 (round64 q zs) = roundTo binary64 q zs := by
  obtain ⟨-, hinf, hfin⟩ := roundToOverflowBound binary64 (.inl rfl) q zs
  by_cases he : (roundTo binary64 q zs).exp = 2 ^ binary64.expBits - 1
  · exact fields64_to64 (by rw [he]; decide) (by rw [hinf he]; decide)
  · obtain ⟨he', hm'⟩ := finiteFields64_bounds (hfin he)
    exact fields64_to64 he' hm'

theorem round32_eq_iff : round32 q zs = f ↔ roundTo binary32 q zs = fields32 f := by
  refine ⟨fun h => by rw [← h, fields32_round32], fun h => ?_⟩
  rw [round32, h, to32_fields32]

/-- A nonnegative rational is rounded to sign 0. -/
theorem roundTo_sign_of_nonneg (F : Format) (hq : 0 ≤ q) : (roundTo F q false).sign = false := by
  rw [roundTo_sign, decide_eq_false hq.not_gt, ite_self]

/-! ### narrow, class by class (R89) -/

theorem narrow_of_isNan (h : isNan b = true) :
    narrow b = join32 (sign64 b) 0xFF#8 ((frac64 b).extractLsb' 29 23 ||| (1#23 <<< 22)) := if_pos h

theorem narrow_of_isInf (h : isInf b = true) : narrow b = inf32 (sign64 b) := by
  simp [narrow, isNan_of_isInf h, h]

theorem narrow_of_finite (h : Finite64 b) : narrow b = round32 (val64 b) (sign64 b) := by
  obtain ⟨hnan, hinf⟩ := h
  simp [narrow, hnan, hinf]

theorem narrow_nan_toNat (h : isNan b = true) :
    (narrow b).toNat = signNat b * 2 ^ 31 + 0xFF * 2 ^ 23 + (fracNat b / 2 ^ 29 ||| 2 ^ 22) := by
  have hfrac : ((frac64 b).extractLsb' 29 23).toNat = fracNat b / 2 ^ 29 := by
    have := fracNat_lt b
    rw [toNat_extract_eq, frac64_toNat]
    omega
  rw [narrow_of_isNan h, toNat_join32, sign64_toNat, BitVec.toNat_or, hfrac]
  rfl

/-! ### narrow's two bounds (R83, R89) -/

theorem round32_eq_inf_iff (hq : 0 ≤ q) : round32 q false = 0x7F800000#32 ↔ (2 ^ 128 - 2 ^ 103 : Rat) ≤ q := by
  obtain ⟨hbound, hfrac, -⟩ := roundToOverflowBound binary32 (.inr rfl) q false
  have hB : ((2 ^ (binary32.fracBits + 2) - 1 : Nat) : Rat) * pow2 (binary32.emax - binary32.fracBits - 1) =
      2 ^ 128 - 2 ^ 103 := by decide +kernel
  have hsign := roundTo_sign_of_nonneg binary32 hq
  rw [hB, abs_of_nonneg hq] at hbound
  rw [round32_eq_iff, ← hbound, show fields32 0x7F800000#32 = ⟨false, 2 ^ binary32.expBits - 1, 0⟩ by decide]
  refine ⟨fun h => by rw [h], fun h => ?_⟩
  have hzero := hfrac h
  cases hr : roundTo binary32 q false
  simp_all

/-- An even integer is the nearest to everything up to half a unit above it, the half included. -/
theorem nearestEven_le_iff {n : Rat} (hn : 0 ≤ n) {k : Nat} (hk : k % 2 = 0) :
    nearestEven n ≤ k ↔ n ≤ k + 1 / 2 := by
  obtain ⟨hhalf, htie⟩ := nearestEven_spec hn
  rw [abs_le] at hhalf
  obtain ⟨hlow, hhigh⟩ := hhalf
  constructor
  · intro h
    have hR : (nearestEven n : Rat) ≤ k := by exact_mod_cast h
    linarith
  · intro h
    by_contra hgt
    have hR : (k : Rat) + 1 ≤ nearestEven n := by exact_mod_cast not_le.1 hgt
    have heven := htie (by rw [abs_sub_comm, abs_of_nonneg (by linarith)]; linarith)
    have heq : (nearestEven n : Rat) = k + 1 := by linarith
    have heq' : nearestEven n = k + 1 := by exact_mod_cast heq
    omega

section Subnormal

variable {F : Format}

/-- Below the least normal value the significand is the number of subnormal units. -/
theorem roundTo_subnormal (hq : 0 < q) (h : q < pow2 F.emin) :
    roundTo F q zs = assemble F false F.emin (nearestEven (q * pow2 (F.fracBits - F.emin))) := by
  have hlog : floorLog2 q < F.emin := pow2_lt_pow2.1 (lt_of_le_of_lt (floorLog2_spec hq).1 h)
  have hexp : roundExp F q = F.emin := max_eq_right hlog.le
  rw [roundTo_of_ne_zero F hq.ne', abs_of_pos hq, decide_eq_false hq.not_gt, roundSig, hexp]

/-- Up to the least normal value the fields, read as one number, are the significand. -/
theorem assemble_subnormal (hF : F.Interchange) (s : Bool) {k : Nat} (hk : k ≤ 2 ^ F.fracBits) :
    (assemble F s F.emin k).exp * 2 ^ F.fracBits + (assemble F s F.emin k).frac = k := by
  have hemin := hF.emin_bias
  have hle := hF.emin_le
  have hpos := Nat.two_pow_pos F.fracBits
  have hcarry : k ≠ 2 ^ (F.fracBits + 1) := by
    rw [pow_succ]
    omega
  unfold assemble
  rw [if_neg hcarry, if_neg hle.not_gt, hemin]
  split_ifs with h
  · simp
  · simp
    omega

/-- From the least normal value on the result is normal or an infinity. -/
theorem roundTo_exp_ne_zero (hF : F.Interchange) (hm : F.fracBits ≠ 0) (hq : pow2 F.emin ≤ q) :
    (roundTo F q false).exp ≠ 0 := by
  have hemin := hF.emin_bias
  have hemax := hF.emax_bias
  have hle := hF.emin_le
  have hpow : ((2 ^ F.expBits : Nat) : Int) = 2 ^ F.expBits := by push_cast; rfl
  have hpos : 0 < q := lt_of_lt_of_le (pow2_pos _) hq
  intro h0
  rcases roundTo_overflow_or_finite hF hm hpos.ne' (zs := false) with ⟨-, hr⟩ | ⟨-, hfin⟩
  · rw [hr] at h0
    simp only at h0
    omega
  · have hone : FiniteFields F ⟨false, 1, 0⟩ := ⟨show 1 < 2 ^ F.expBits - 1 by omega, Nat.two_pow_pos _⟩
    have hmin : fieldsValue F ⟨false, 1, 0⟩ = pow2 F.emin := by
      simp only [fieldsValue, finiteValue, Bool.false_eq_true, if_false, one_ne_zero]
      rw [Nat.add_zero, ← pow2_natCast, ← pow2_add]
      congr 1
      push_cast
      omega
    have hbelow : fieldsValue F (roundTo F q false) < fieldsValue F ⟨false, 1, 0⟩ := by
      rw [fieldsValue, roundTo_sign_of_nonneg F hpos.le, h0]
      exact finiteValue_lt_of_exp_lt hF hfin.2 one_pos
    have hnear := (roundTo_nearest hF hm hpos.ne' hfin hone).1
    rw [hmin] at hbelow hnear
    rw [abs_of_pos (by linarith), abs_of_nonneg (by linarith)] at hnear
    linarith

end Subnormal

theorem round32_toNat (hq : 0 ≤ q) : (round32 q false).toNat =
    (roundTo binary32 q false).exp * 2 ^ 23 + (roundTo binary32 q false).frac := by
  have hfields := fields32_round32 q false
  have hsign : sign32 (round32 q false) = false :=
    (congrArg Fields.sign hfields).trans (roundTo_sign_of_nonneg binary32 hq)
  have hexp : expNat32 (round32 q false) = (roundTo binary32 q false).exp := congrArg Fields.exp hfields
  have hfrac : fracNat32 (round32 q false) = (roundTo binary32 q false).frac := congrArg Fields.frac hfields
  rw [toNat_eq_fields32, ← sign32_toNat, hsign, hexp, hfrac, Bool.toNat_false, Nat.zero_mul, Nat.zero_add]

/-- Among the normal values, the pattern has a nonzero exponent field. -/
theorem le_round32_toNat (hq : pow2 binary32.emin ≤ q) : 2 ^ 23 ≤ (round32 q false).toNat := by
  have hexp := roundTo_exp_ne_zero binary32_interchange (by decide) hq
  rw [round32_toNat ((pow2_pos _).le.trans hq)]
  omega

/-- Below them, the pattern's number is the number of units of 2^-149. -/
theorem round32_toNat_subnormal (hq : 0 ≤ q) (h : q < pow2 binary32.emin) :
    (round32 q false).toNat = nearestEven (q * pow2 149) := by
  have hscale : 0 < pow2 149 := pow2_pos 149
  rw [round32_toNat hq]
  rcases hq.eq_or_lt with rfl | hpos
  · have hk : nearestEven 0 = 0 := by exact_mod_cast nearestEven_natCast 0
    simp [roundTo_zero, hk]
  · have hk : nearestEven (q * pow2 149) ≤ 2 ^ binary32.fracBits := by
      have hle := mul_lt_mul_of_pos_right h hscale
      rw [← pow2_add] at hle
      apply nearestEven_le (by positivity)
      rw [← pow2_natCast]
      exact hle.le
    rw [roundTo_subnormal hpos h]
    exact assemble_subnormal binary32_interchange false hk

/-- Rounding to binary32 gives at most an even subnormal pattern up to half a unit above it. -/
theorem round32_toNat_le_iff (hq : 0 ≤ q) {p : Nat} (hp : p % 2 = 0) (hsub : p < 2 ^ 23) :
    (round32 q false).toNat ≤ p ↔ q * pow2 149 ≤ p + 1 / 2 := by
  have hscale : 0 < pow2 149 := pow2_pos 149
  rcases lt_or_ge q (pow2 binary32.emin) with hlow | hnormal
  · rw [round32_toNat_subnormal hq hlow, nearestEven_le_iff (by positivity) hp]
  · have hpattern := le_round32_toNat hnormal
    have hvalue := mul_le_mul_of_nonneg_right hnormal hscale.le
    rw [← pow2_add, show binary32.emin + 149 = ((23 : Nat) : Int) by decide, pow2_natCast] at hvalue
    have hp' : (p : Rat) + 1 ≤ ((2 ^ 23 : Nat) : Rat) := by exact_mod_cast hsub
    exact iff_of_false (by omega) (by linarith)

theorem round32_eq_zero_iff (hq : 0 ≤ q) : round32 q false = 0x00000000#32 ↔ q ≤ (1 / 2 ^ 150 : Rat) := by
  have hzero : round32 q false = 0x00000000#32 ↔ (round32 q false).toNat ≤ 0 := by
    rw [Nat.le_zero, ← BitVec.toNat_inj]
    rfl
  rw [hzero, round32_toNat_le_iff hq (by decide) (by decide), show pow2 149 = 2 ^ 149 by decide +kernel,
    Nat.cast_zero, ← le_div_iff₀ (by positivity)]
  norm_num

/-! ### widen, class by class (R90) -/

theorem widen_of_isNan32 (h : isNan32 f = true) :
    widen f = join64 (sign32 f) 0x7FF#11 ((frac32 f ||| (1#23 <<< 22)) ++ 0#29) := if_pos h

theorem widen_of_isInf32 (h : isInf32 f = true) : widen f = inf64 (sign32 f) := by
  simp [widen, isNan32_of_isInf32 h, h]

theorem widen_of_finite (h : Finite32 f) : widen f = round64 (val32 f) (sign32 f) := by
  obtain ⟨hnan, hinf⟩ := h
  simp [widen, hnan, hinf]

theorem widen_nan_toNat (h : isNan32 f = true) : (widen f).toNat =
    signNat32 f * 2 ^ 63 + 0x7FF * 2 ^ 52 + (fracNat32 f ||| 2 ^ 22) * 2 ^ 29 := by
  rw [widen_of_isNan32 h, toNat_join64, toNat_append_eq, sign32_toNat, BitVec.toNat_or, frac32_toNat,
    show (1#23 <<< 22).toNat = 2 ^ 22 by decide]
  simp

/-- Every finite binary32 value is a binary64 value, so rounding it to binary64 is exact (R90). -/
theorem roundTo_val32 (h : Finite32 f) (zs : Bool) :
    FiniteFields binary64 (roundTo binary64 (val32 f) zs) ∧
      fieldsValue binary64 (roundTo binary64 (val32 f) zs) = val32 f := by
  by_cases h0 : val32 f = 0
  · rw [h0, roundTo_zero]
    exact ⟨finiteFields_zero binary64_interchange zs, (finiteValue_eq_zero_iff binary64 zs 0 0).2 ⟨rfl, rfl⟩⟩
  · obtain ⟨j, E, hE, hE', hj, hval⟩ := fieldsValue_grid binary32_interchange (finite32_iff.1 h)
    rw [← val32_eq] at hval
    have habs : |val32 f| = j * pow2 (E + 29 - binary64.fracBits) := by
      rw [hval, abs_mul, abs_of_nonneg (mul_nonneg (Nat.cast_nonneg j) (pow2_pos _).le),
        show E + 29 - (binary64.fracBits : Int) = E - binary32.fracBits by simp only [binary64, binary32]; omega]
      split_ifs <;> simp
    simp only [binary32] at hE hE' hj
    obtain ⟨-, hfin, hv⟩ := roundTo_exact binary64_interchange (by decide) h0 zs
      (show binary64.emin ≤ E + 29 by simp only [binary64]; omega)
      (show E + 29 ≤ binary64.emax by simp only [binary64]; omega)
      (show j < 2 ^ (binary64.fracBits + 1) by simp only [binary64]; omega) habs
    exact ⟨hfin, hv⟩

theorem fields64_widen (h : Finite32 f) : fields64 (widen f) = roundTo binary64 (val32 f) (sign32 f) := by
  rw [widen_of_finite h, fields64_round64]

theorem val64_widen (h : Finite32 f) : val64 (widen f) = val32 f := by
  rw [val64_eq, fields64_widen h]
  exact (roundTo_val32 h _).2

theorem finite64_widen (h : Finite32 f) : Finite64 (widen f) := by
  rw [finite64_iff, fields64_widen h]
  exact (roundTo_val32 h _).1

theorem class32_cases (f : Word32) : isNan32 f = true ∨ isInf32 f = true ∨ Finite32 f := by
  cases hnan : isNan32 f with
  | true => exact .inl rfl
  | false =>
    cases hinf : isInf32 f with
    | true => exact .inr (.inl rfl)
    | false => exact .inr (.inr ⟨hnan, hinf⟩)

theorem abs_fieldsValue (F : Format) (x : Fields) : |fieldsValue F x| = finiteValue F false x.exp x.frac := by
  rw [fieldsValue, finiteValue_sign, abs_mul, abs_of_nonneg (finiteValue_nonneg F x.exp x.frac)]
  split_ifs <;> simp

/-- A binary32 value other than 0 is at least the least subnormal, which in binary64 is normal. -/
theorem val32_eq_zero_of_widen_exp_zero (h : Finite32 f) (he : expNat (widen f) = 0) : val32 f = 0 := by
  by_contra h0
  have hne : ¬ (expNat32 f = 0 ∧ fracNat32 f = 0) := by
    rw [val32_eq, fieldsValue, finiteValue_eq_zero_iff] at h0
    exact h0
  have hlow : finiteValue binary32 false 0 1 ≤ |val32 f| := by
    rw [val32_eq, abs_fieldsValue, ← not_lt]
    refine (finiteValue_lt_iff (m' := 1) binary32_interchange (fracNat32_lt f) (by decide)).not.2 ?_
    show ¬ (expNat32 f < 0 ∨ expNat32 f = 0 ∧ fracNat32 f < 1)
    omega
  have hhigh : |val32 f| < finiteValue binary64 false 1 0 := by
    rw [← val64_widen h, val64_eq, abs_fieldsValue]
    refine (finiteValue_lt_iff (m' := 0) binary64_interchange (fracNat_lt _) (by decide)).2 (.inl ?_)
    show expNat (widen f) < 1
    omega
  have horder : finiteValue binary64 false 1 0 < finiteValue binary32 false 0 1 := by decide +kernel
  linarith

theorem isZero32_of_val32_eq_zero (h : val32 f = 0) : isZero32 f = true := by
  rw [val32_eq, fieldsValue, finiteValue_eq_zero_iff] at h
  exact isZero32_iff.2 h

theorem isZero_of_val64_eq_zero (h : val64 b = 0) : isZero b = true := by
  rw [val64_eq, fieldsValue, finiteValue_eq_zero_iff] at h
  exact isZero_iff.2 h

/-- Exponent field 0 comes only from a zero. -/
theorem isZero_of_widen_exp_zero (he : expNat (widen f) = 0) : isZero32 f = true ∧ isZero (widen f) = true := by
  rcases class32_cases f with h | h | h
  · rw [widen_of_isNan32 h, ← exp64_toNat, exp64_join64] at he
    cases he
  · rw [widen_of_isInf32 h, inf64, ← exp64_toNat, exp64_join64] at he
    cases he
  · have h0 := val32_eq_zero_of_widen_exp_zero h he
    exact ⟨isZero32_of_val32_eq_zero h0, isZero_of_val64_eq_zero ((val64_widen h).trans h0)⟩

/-- An infinity of either format by its sign. -/
theorem narrow_inf (h : isInf b = true) : narrow b = if signNat b = 0 then 0x7F800000#32 else 0xFF800000#32 := by
  rw [narrow_of_isInf h, inf32_eq, sign64_eq]
  rcases signNat_eq_zero_or_one b with hs | hs <;> simp [hs]

theorem widen_inf (h : isInf32 f = true) :
    widen f = if signNat32 f = 0 then 0x7FF0000000000000#64 else 0xFFF0000000000000#64 := by
  rw [widen_of_isInf32 h, inf64_eq, sign32_eq]
  rcases signNat32_eq_zero_or_one f with hs | hs <;> simp [hs]

/-- The value of a pattern of sign 0 is not negative. -/
theorem val64_nonneg (hs : signNat b = 0) : 0 ≤ val64 b := by
  rw [val64_eq, fieldsValue, finiteValue_sign, fields64, sign64_eq, hs]
  simpa using finiteValue_nonneg binary64 (expNat b) (fracNat b)

theorem narrow_of_finite_nonneg (h : Finite64 b) (hs : signNat b = 0) : narrow b = round32 (val64 b) false := by
  rw [narrow_of_finite h, sign64_eq, hs]
  rfl

/-- Settles O33: NaNs and infinities by their fields, the bounds from RoundTo's, and widen's exactness from the grid. -/
theorem narrowAndWidenByOperandClass : Obligations.NarrowAndWidenByOperandClass := by
  refine ⟨fun b => ⟨fun h => eq_ofNat_of_toNat_eq (narrow_nan_toNat h), narrow_inf, fun h => ?_, fun h hs => ?_⟩,
    fun f => ⟨fun h => eq_ofNat_of_toNat_eq (widen_nan_toNat h), widen_inf, fun h => ⟨?_, val64_widen h, ?_⟩,
      isZero_of_widen_exp_zero⟩⟩
  · rw [narrow_of_finite h, sign64_eq]
  · rw [narrow_of_finite_nonneg h hs]
    exact ⟨round32_eq_inf_iff (val64_nonneg hs), round32_eq_zero_iff (val64_nonneg hs)⟩
  · rw [widen_of_finite h, sign32_eq]
  · exact (finite64_widen h).2

end Sys2Proof.Machine
end

section
/-! SUPPORT. Proofs of the statements on spec/42_rsqrt_sqrt.md R125 to R128: the initial guess, the bounds of the guard and
clamp paths, and SQRT of a NaN. -/

namespace Sys2Proof.Machine

variable {x b : Word} {n f : Word32} {q : Rat}

/-! ### Seed and guess keep the sign of a nonnegative operand (R121, R128) -/

theorem signNat_of_sign64 {s : Bool} (h : sign64 b = s) : signNat b = s.toNat := by
  rw [← sign64_toNat, h]

theorem signNat32_of_sign32 {s : Bool} (h : sign32 f = s) : signNat32 f = s.toNat := by
  rw [← sign32_toNat, h]

/-- Rounding a nonnegative rational to binary32 gives sign 0 and no NaN. -/
theorem round32_nonneg (hq : 0 ≤ q) : signNat32 (round32 q false) = 0 ∧ isNan32 (round32 q false) = false := by
  have hfields := fields32_round32 q false
  obtain ⟨-, hinf, hfin⟩ := roundToOverflowBound binary32 (.inr rfl) q false
  rw [← hfields] at hinf hfin
  refine ⟨signNat32_of_sign32 ((congrArg Fields.sign hfields).trans (roundTo_sign_of_nonneg binary32 hq)), ?_⟩
  rw [Bool.eq_false_iff, Ne, isNan32_iff]
  exact fun ⟨he, hm⟩ => hm (hinf he)

/-- widen keeps the sign of every pattern. -/
theorem signNat_widen (f : Word32) : signNat (widen f) = signNat32 f := by
  rw [← sign32_toNat]
  rcases class32_cases f with h | h | h
  · rw [widen_of_isNan32 h, signNat_join64]
  · rw [widen_of_isInf32 h, inf64, signNat_join64]
  · have hsign : sign64 (widen f) = (roundTo binary64 (val32 f) (sign32 f)).sign :=
      congrArg Fields.sign (fields64_widen h)
    rw [roundTo_sign] at hsign
    apply signNat_of_sign64
    rw [hsign]
    split_ifs with h0
    · rfl
    · rw [val32_eq] at h0 ⊢
      exact fieldsValue_neg_iff h0

/-- narrow of a number of sign 0 is a number of sign 0. -/
theorem narrow_nonneg (hs : signNat x = 0) (hnan : isNan x = false) :
    signNat32 (narrow x) = 0 ∧ isNan32 (narrow x) = false := by
  cases hinf : isInf x with
  | true =>
    rw [narrow_inf hinf, if_pos hs]
    decide
  | false =>
    rw [narrow_of_finite_nonneg ⟨hnan, hinf⟩ hs]
    exact round32_nonneg (val64_nonneg hs)

theorem val32_nonneg (hs : signNat32 f = 0) : 0 ≤ val32 f := by
  rw [val32_eq, fieldsValue, finiteValue_sign, fields32, sign32_eq, hs]
  simpa using finiteValue_nonneg binary32 (expNat32 f) (fracNat32 f)

/-- 1/n in binary32 for a number n of sign 0: an infinity at zero, a zero at infinity, else the rounded reciprocal. -/
theorem reciprocal_cases (hs : signNat32 n = 0) (hnan : isNan32 n = false) :
    (isZero32 n = true ∧ fdiv32 one32 n = 0x7F800000#32) ∨
    (isInf32 n = true ∧ fdiv32 one32 n = 0x00000000#32) ∨
    (Finite32 n ∧ 0 < val32 n ∧ fdiv32 one32 n = round32 (1 / val32 n) false) := by
  have hone : Finite32 one32 := ⟨by decide, by decide⟩
  have hsame : signNat32 one32 = signNat32 n := by rw [hs]; decide
  cases hzero : isZero32 n with
  | true => exact .inl ⟨rfl, by rw [fdiv32_of_isZero32_right hone (by decide) hzero, if_pos hsame]⟩
  | false =>
    cases hinf : isInf32 n with
    | true => exact .inr (.inl ⟨rfl, by rw [fdiv32_of_isInf32_right hone.1 hone.2 hinf, if_pos hsame]⟩)
    | false =>
      have hne : val32 n ≠ 0 := fun h0 => by rw [isZero32_of_val32_eq_zero h0] at hzero; cases hzero
      refine .inr (.inr ⟨⟨hnan, hinf⟩, lt_of_le_of_ne (val32_nonneg hs) hne.symm, ?_⟩)
      rw [fdiv32_of_finite hone ⟨hnan, hinf⟩ hzero, hsame, show val32 one32 = 1 by decide +kernel]
      simp

theorem reciprocal_nonneg (hs : signNat32 n = 0) (hnan : isNan32 n = false) :
    signNat32 (fdiv32 one32 n) = 0 ∧ isNan32 (fdiv32 one32 n) = false := by
  rcases reciprocal_cases hs hnan with ⟨-, h⟩ | ⟨-, h⟩ | ⟨-, hpos, h⟩
  · rw [h]; decide
  · rw [h]; decide
  · rw [h]
    exact round32_nonneg (div_nonneg zero_le_one hpos.le)

theorem rseedValue_nonneg (hs : signNat x = 0) (hnan : isNan x = false) : signNat (rseedValue x) = 0 := by
  obtain ⟨hs', hnan'⟩ := narrow_nonneg hs hnan
  rw [rseedValue, signNat_widen]
  exact (reciprocal_nonneg hs' hnan').1

/-- REST's estimate keeps the sign and halves the clamped exponent, with an offset. -/
theorem restValue_sign_and_exp (a : Word) : signNat (restValue a) = signNat a ∧
    expNat (restValue a) = clampedExp a / 2 + (if clampedExp a % 2 = 1 then 0x200 else 0x1FF) := by
  have hexp := clampedExp_lt a
  rw [← exp64_toNat]
  by_cases hodd : clampedExp a % 2 = 1
  · rw [restValue, if_pos hodd, if_pos hodd, signNat_join64, exp64_join64]
    exact ⟨sign64_toNat a, toNat_offsetExp hexp (by decide)⟩
  · rw [restValue, if_neg hodd, if_neg hodd, signNat_join64, exp64_join64]
    exact ⟨sign64_toNat a, toNat_offsetExp hexp (by decide)⟩

theorem restValue_exp_range (a : Word) : 0x200 ≤ expNat (restValue a) ∧ expNat (restValue a) ≤ 0x5FF := by
  have hexp := clampedExp_lt a
  have hpos : 1 ≤ clampedExp a := by
    rw [clampedExp_eq]
    split_ifs <;> omega
  rw [(restValue_sign_and_exp a).2]
  split_ifs <;> omega

/-- Settles O29: the offset puts half an exponent into the range, and every stage keeps sign 0. -/
theorem initialGuessRange : Obligations.InitialGuessRange :=
  ⟨restValue_exp_range, fun _ hnan hs => (restValue_sign_and_exp _).1.trans (rseedValue_nonneg hs hnan)⟩

/-! ### The order of nonnegative patterns and of their values -/

theorem val64_le_iff {a b : Word} (ha : signNat a = 0) (hb : signNat b = 0) :
    val64 a ≤ val64 b ↔ a.toNat ≤ b.toNat := by
  have hfa := fracNat_lt a
  have hfb := fracNat_lt b
  rw [val64_eq, val64_eq, fieldsValue, fieldsValue, fields64, fields64, sign64_eq, sign64_eq, ha, hb, ← not_lt]
  refine (finiteValue_lt_iff binary64_interchange hfb hfa).not.trans ?_
  dsimp only
  rw [toNat_eq_fields a, toNat_eq_fields b, ha, hb]
  omega

theorem val32_le_iff {a b : Word32} (ha : signNat32 a = 0) (hb : signNat32 b = 0) :
    val32 a ≤ val32 b ↔ a.toNat ≤ b.toNat := by
  have hfa := fracNat32_lt a
  have hfb := fracNat32_lt b
  rw [val32_eq, val32_eq, fieldsValue, fieldsValue, fields32, fields32, sign32_eq, sign32_eq, ha, hb, ← not_lt]
  refine (finiteValue_lt_iff binary32_interchange hfb hfa).not.trans ?_
  dsimp only
  rw [toNat_eq_fields32 a, toNat_eq_fields32 b, ha, hb]
  omega

/-! ### Infinite and zero reciprocals -/

/-- The reciprocal overflows up to 2^-128, the pattern 2^21: the next value up has a finite reciprocal. -/
theorem one_div_overflows_iff (hs : signNat32 n = 0) (hpos : 0 < val32 n) :
    (2 ^ 128 - 2 ^ 103 : Rat) ≤ 1 / val32 n ↔ n.toNat ≤ 2 ^ 21 := by
  have hin : val32 0x00200000#32 ≤ 1 / (2 ^ 128 - 2 ^ 103) := by decide +kernel
  have hout : 1 / (2 ^ 128 - 2 ^ 103) < val32 0x00200001#32 := by decide +kernel
  rw [le_one_div (by norm_num) hpos]
  constructor
  · intro h
    by_contra hgt
    have hle : val32 0x00200001#32 ≤ val32 n := (val32_le_iff (by decide) hs).2 (not_le.1 hgt)
    linarith
  · intro h
    exact ((val32_le_iff (b := 0x00200000#32) hs (by decide)).2 h).trans hin

theorem isInf32_iff_of_nonneg (hs : signNat32 f = 0) : isInf32 f = true ↔ f = 0x7F800000#32 := by
  have hm := fracNat32_lt f
  rw [isInf32_iff, ← BitVec.toNat_inj, toNat_eq_fields32 f, hs, show (0x7F800000#32).toNat = 0xFF * 2 ^ 23 by decide]
  omega

theorem isInf32_toNat (hs : signNat32 f = 0) (h : isInf32 f = true) : f.toNat = 0x7F800000 := by
  rw [(isInf32_iff_of_nonneg hs).1 h]
  rfl

theorem isInf32_reciprocal_iff (hs : signNat32 n = 0) (hnan : isNan32 n = false) :
    isInf32 (fdiv32 one32 n) = true ↔ n.toNat ≤ 2 ^ 21 := by
  rcases reciprocal_cases hs hnan with ⟨hzero, h⟩ | ⟨hinf, h⟩ | ⟨-, hpos, h⟩
  · obtain ⟨he, hm⟩ := isZero32_iff.1 hzero
    rw [h, toNat_eq_fields32, hs, he, hm]
    decide
  · rw [h, isInf32_toNat hs hinf]
    decide
  · have hnn : 0 ≤ 1 / val32 n := div_nonneg zero_le_one hpos.le
    rw [h, isInf32_iff_of_nonneg (round32_nonneg hnn).1, round32_eq_inf_iff hnn, one_div_overflows_iff hs hpos]

/-- No finite number has a reciprocal that is rounded to zero. -/
theorem isZero32_reciprocal_iff (hs : signNat32 n = 0) (hnan : isNan32 n = false) :
    isZero32 (fdiv32 one32 n) = true ↔ isInf32 n = true := by
  rcases reciprocal_cases hs hnan with ⟨hzero, h⟩ | ⟨hinf, h⟩ | ⟨hfin, hpos, h⟩
  · rw [h, isInf32_of_isZero32 hzero]
    decide
  · rw [h, hinf]
    decide
  · rw [hfin.2]
    refine iff_of_false (fun hzero => ?_) (by decide)
    have hnn : 0 ≤ 1 / val32 n := div_nonneg zero_le_one hpos.le
    have hpattern : fdiv32 one32 n = 0x00000000#32 := by
      obtain ⟨he, hm⟩ := isZero32_iff.1 hzero
      apply BitVec.eq_of_toNat_eq
      rw [toNat_eq_fields32, he, hm, (reciprocal_nonneg hs hnan).1]
      rfl
    rw [h, round32_eq_zero_iff hnn, one_div_le_one_div hpos (by positivity)] at hpattern
    have hmax : val32 n ≤ val32 0x7F800000#32 := by
      rw [val32_le_iff hs (by decide), toNat_eq_fields32 n, hs, show (0x7F800000#32).toNat = 0xFF * 2 ^ 23 by decide]
      obtain ⟨he, hm⟩ := finite32_iff.1 hfin
      change expNat32 n < 0xFF at he
      change fracNat32 n < 2 ^ 23 at hm
      omega
    have hlt : val32 0x7F800000#32 < 2 ^ 150 := by decide +kernel
    linarith

/-! ### The guard and clamp paths (R126, R127) -/

theorem seedInfinite_widen_iff (hnan : isNan32 f = false) : seedInfinite (widen f) = true ↔ isInf32 f = true := by
  rcases class32_cases f with h | h | h
  · rw [h] at hnan; cases hnan
  · rw [widen_inf h, h]
    split_ifs <;> decide
  · exact iff_of_false (Bool.eq_false_iff.1 (finite64_widen h).2) (Bool.eq_false_iff.1 h.2)

theorem seedClamped_widen_iff : seedClamped (widen f) = true ↔ isZero32 f = true := by
  rw [seedClamped_eq, decide_eq_true_iff]
  refine ⟨fun h => (isZero_of_widen_exp_zero h).1, fun h => ?_⟩
  have hfin : Finite32 f := ⟨isNan32_of_isZero32 h, isInf32_of_isZero32 h⟩
  have hval : val32 f = 0 := by
    rw [val32_eq, fieldsValue, finiteValue_eq_zero_iff]
    exact isZero32_iff.1 h
  exact (isZero_iff.1 (isZero_of_val64_eq_zero ((val64_widen hfin).trans hval))).1

/-- For a positive number SQRT's path fields are the two reports on the seed. -/
theorem sqrtRule_path_of_pos (hs : signNat x = 0) (hzero : isZero x = false) :
    (sqrtRule x).2.sinf = seedInfinite (rseedValue x) ∧ (sqrtRule x).2.sclamp = seedClamped (rseedValue x) := by
  have hlt : ¬ ltZero x = true := by
    rw [ltZero_iff, hs]
    omega
  have hboth := seedInfinite_and_seedClamped (rseedValue x)
  rw [sqrtRule, if_neg hlt, if_neg (by rw [hzero]; decide)]
  cases hi : seedInfinite (rseedValue x) with
  | true =>
    rw [hi, Bool.true_and] at hboth
    simp [hi, hboth]
  | false => simp [hi]

/-- The pattern of the guard bound is the midpoint of the binary32 patterns 2^21 and 2^21 + 1. -/
theorem narrow_toNat_le_iff (hs : signNat x = 0) (hnan : isNan x = false) :
    (narrow x).toNat ≤ 2 ^ 21 ↔ x.toNat ≤ 0x37F0000040000000 := by
  cases hinf : isInf x with
  | true =>
    obtain ⟨he, hm⟩ := isInf_iff.1 hinf
    rw [narrow_inf hinf, if_pos hs, toNat_eq_fields x, hs, he, hm]
    decide
  | false =>
    have hbound : ((2 ^ 21 : Nat) + 1 / 2 : Rat) = val64 0x37F0000040000000#64 * pow2 149 := by decide +kernel
    rw [narrow_of_finite_nonneg ⟨hnan, hinf⟩ hs, round32_toNat_le_iff (val64_nonneg hs) (by decide) (by decide), hbound,
      mul_le_mul_iff_of_pos_right (pow2_pos 149), val64_le_iff hs (by decide)]
    rfl

/-- Settles O34: the seed is infinite where the reciprocal of the narrowed operand overflows. -/
theorem guardPathBound : Obligations.GuardPathBound := by
  intro x hs hnan hzero
  obtain ⟨hs', hnan'⟩ := narrow_nonneg hs hnan
  rw [(sqrtRule_path_of_pos hs hzero).1, rseedValue, seedInfinite_widen_iff (reciprocal_nonneg hs' hnan').2,
    isInf32_reciprocal_iff hs' hnan', narrow_toNat_le_iff hs hnan]

/-- The pattern of the clamp bound is half a unit beyond the largest binary32 value. -/
theorem isInf32_narrow_iff (hs : signNat x = 0) (hnan : isNan x = false) :
    isInf32 (narrow x) = true ↔ 0x47EFFFFFF0000000 ≤ x.toNat := by
  cases hinf : isInf x with
  | true =>
    obtain ⟨he, hm⟩ := isInf_iff.1 hinf
    rw [narrow_inf hinf, if_pos hs, toNat_eq_fields x, hs, he, hm]
    decide
  | false =>
    have hbound : (2 ^ 128 - 2 ^ 103 : Rat) = val64 0x47EFFFFFF0000000#64 := by decide +kernel
    rw [isInf32_iff_of_nonneg (narrow_nonneg hs hnan).1, narrow_of_finite_nonneg ⟨hnan, hinf⟩ hs,
      round32_eq_inf_iff (val64_nonneg hs), hbound, val64_le_iff (by decide) hs]
    rfl

/-- Settles O35: the seed's exponent is zero where the narrowed operand is an infinity. -/
theorem clampPathBound : Obligations.ClampPathBound := by
  intro x hs hnan hzero
  obtain ⟨hs', hnan'⟩ := narrow_nonneg hs hnan
  rw [(sqrtRule_path_of_pos hs hzero).2, rseedValue, seedClamped_widen_iff, isZero32_reciprocal_iff hs' hnan',
    isInf32_narrow_iff hs hnan]

/-! ### SQRT of a NaN (R84, R125) -/

theorem or_ne_zero_of_right {w : Nat} {a c : BitVec w} (hc : c ≠ 0#w) : a ||| c ≠ 0#w :=
  fun h => hc (BitVec.or_eq_zero_iff.1 h).2

theorem isNan_quiet64 (h : isNan b = true) : isNan (quiet64 b) = true := by
  have hexp : exp64 (quiet64 b) = exp64 b := by
    rw [quiet64, exp64, BitVec.extractLsb'_or, show (1#64 <<< 51).extractLsb' 52 11 = 0#11 by decide, BitVec.or_zero]
    rfl
  have hfrac : frac64 (quiet64 b) ≠ 0#52 := by
    rw [quiet64, frac64, BitVec.extractLsb'_or]
    exact or_ne_zero_of_right (by decide)
  rw [isNan, Bool.and_eq_true, beq_iff_eq] at h
  rw [isNan, hexp, h.1]
  simp [hfrac]

theorem isNan32_quiet32 (h : isNan32 f = true) : isNan32 (quiet32 f) = true := by
  have hexp : exp32 (quiet32 f) = exp32 f := by
    rw [quiet32, exp32, BitVec.extractLsb'_or, show (1#32 <<< 22).extractLsb' 23 8 = 0#8 by decide, BitVec.or_zero]
    rfl
  have hfrac : frac32 (quiet32 f) ≠ 0#23 := by
    rw [quiet32, frac32, BitVec.extractLsb'_or]
    exact or_ne_zero_of_right (by decide)
  rw [isNan32, Bool.and_eq_true, beq_iff_eq] at h
  rw [isNan32, hexp, h.1]
  simp [hfrac]

/-- Quieting twice is quieting once. -/
theorem quiet64_quiet64 (b : Word) : quiet64 (quiet64 b) = quiet64 b := by
  rw [quiet64, quiet64, BitVec.or_assoc, BitVec.or_self]

theorem isNan32_narrow (h : isNan b = true) : isNan32 (narrow b) = true := by
  have hfrac : (frac64 b).extractLsb' 29 23 ||| 1#23 <<< 22 ≠ 0#23 := or_ne_zero_of_right (by decide)
  rw [narrow_of_isNan h, isNan32, exp32_join32, frac32_join32, beq_self_eq_true, Bool.true_and]
  exact bne_iff_ne.2 hfrac

theorem isNan_widen (h : isNan32 f = true) : isNan (widen f) = true := by
  have hfrac : (frac32 f ||| 1#23 <<< 22) ++ 0#29 ≠ 0#52 := by
    intro h0
    have hnum := congrArg BitVec.toNat h0
    rw [toNat_append_eq, BitVec.toNat_ofNat, BitVec.toNat_ofNat] at hnum
    have hhigh : (frac32 f ||| 1#23 <<< 22).toNat = (0#23).toNat := by
      rw [BitVec.toNat_ofNat]
      omega
    exact or_ne_zero_of_right (by decide) (BitVec.eq_of_toNat_eq hhigh)
  rw [widen_of_isNan32 h, isNan, exp64_join64, frac64_join64, beq_self_eq_true, Bool.true_and]
  exact bne_iff_ne.2 hfrac

/-- The seed of a NaN is a NaN: it takes neither the guard nor the clamp. -/
theorem isNan_rseedValue (h : isNan x = true) : isNan (rseedValue x) = true := by
  rw [rseedValue, fdiv32_of_isNan32_right (by decide) (isNan32_narrow h)]
  exact isNan_widen (isNan32_quiet32 (isNan32_narrow h))

theorem seed_reports_of_isNan (h : isNan b = true) : seedInfinite b = false ∧ seedClamped b = false := by
  obtain ⟨he, hm⟩ := isNan_iff.1 h
  rw [seedInfinite_eq, seedClamped_eq, he]
  simp [hm]

theorem isNan_restValue (a : Word) : isNan (restValue a) = false := by
  have := restValue_exp_range a
  rw [Bool.eq_false_iff, Ne, isNan_iff]
  omega

/-- With a NaN x, an NRSTEP gives x made quiet, from a number and from that quiet NaN alike (R84: the first NaN operand
wins). -/
theorem nrstepValue_of_isNan {xn : Word} (h : isNan x = true) (hxn : isNan xn = false ∨ xn = quiet64 x) :
    nrstepValue x xn = quiet64 x := by
  have hquiet := isNan_quiet64 h
  have hh : fmul64 half64 x = quiet64 x := fmul64_of_isNan_right (by decide) h
  have hp : fmul64 (quiet64 x) (fmul64 xn xn) = quiet64 x := by rw [fmul64_of_isNan_left hquiet, quiet64_quiet64]
  have hd : fsub64 threeHalf64 (quiet64 x) = quiet64 x := by
    rw [fsub64_of_isNan_right (by decide) hquiet, quiet64_quiet64]
  simp only [nrstepValue, hh, hp, hd]
  rcases hxn with hnum | rfl
  · rw [fmul64_of_isNan_right hnum hquiet, quiet64_quiet64]
  · rw [fmul64_of_isNan_left hquiet, quiet64_quiet64]

theorem nr4Value_of_isNan {xn : Word} (h : isNan x = true) (hxn : isNan xn = false) :
    nr4Value x xn = quiet64 x := by
  rw [nr4Value_eq, nrstepValue_of_isNan h (.inl hxn), nrstepValue_of_isNan h (.inr rfl),
    nrstepValue_of_isNan h (.inr rfl), nrstepValue_of_isNan h (.inr rfl)]

/-- Settles O36: a NaN is neither below zero nor zero, its seed is a NaN, and the refiner gives the quiet NaN. -/
theorem sqrtOfNanIsQuiet : Obligations.SqrtOfNanIsQuiet := by
  intro x h
  obtain ⟨hinf, hclamp⟩ := seed_reports_of_isNan (isNan_rseedValue h)
  have hlt : ltZero x = false := by simp [ltZero, h]
  have hzero : isZero x = false := Bool.eq_false_iff.2 fun h0 => by rw [isNan_of_isZero h0] at h; cases h
  have hresult : nrmulValue x (nr4Value x (restValue (rseedValue x))) = quiet64 x := by
    rw [nr4Value_of_isNan h (isNan_restValue _), nrmulValue, fmul64_of_isNan_left (isNan_quiet64 h), quiet64_quiet64]
  simp only [sqrtRule, hlt, hzero, hinf, hclamp, hresult, Bool.false_eq_true, if_false]
  rfl

end Sys2Proof.Machine
end
